-- ==== Sys2Proof/Word.lean ====
section
/-! DEFINITION. The unit of every transfer, length, descriptor and sum of LSFS (spec/00_scope.md R10). -/

namespace Sys2Proof

/-- A byte: 8 bits, always read as an unsigned integer 0 to 255 (R10). -/
abbrev Byte := BitVec 8

end Sys2Proof
end

