-- ==== Sys2Proof/Machine/Data.lean ====
section
/-! DEFINITION. The data of the wire format, of the catalog and of the results the operations return
(spec/30_encoding.md, spec/42_frame_codec.md, spec/43_field_codec_dispatch.md): plain data, no behaviour. -/

namespace Sys2Proof

/-- A function's answer: `return Ok(x)` or `return Err(e)` (spec/00_scope.md R11). -/
inductive Res (ε α : Type) where
  | ok (x : α)
  | err (e : ε)
deriving DecidableEq, Repr

/-- `st`, the sync state (spec/10_state.md R14).  An enumeration: no bit pattern is given (D24). -/
inductive SyncState where
  | awaitSync0
  | awaitSync1
  | awaitDescriptor
  | awaitLength
  | awaitBody
deriving DecidableEq, Repr

/-- RawRecord (spec/30_encoding.md R48): `length` counts itself and the descriptor byte. -/
structure RawRecord where
  length : Byte
  descriptor : Byte
  data : List Byte
deriving DecidableEq, Repr

/-- Header (R47). -/
structure Header where
  sync0 : Byte
  sync1 : Byte
  setDescriptor : Byte
deriving DecidableEq, Repr

/-- Checksum (R50): `msb` holds accumulator `a`, `lsb` accumulator `b`. -/
structure Checksum where
  msb : Byte
  lsb : Byte
deriving DecidableEq, Repr

/-- RawFrame (R51, spec/42_frame_codec.md R89). -/
structure RawFrame where
  header : Header
  declaredLength : Byte
  records : List RawRecord
  checksum : Checksum
deriving DecidableEq, Repr

/-- The frame-level errors (spec/60_exceptions.md R122, R123). -/
inductive FrameError where
  | insufficientBytes (required provided : Nat)
  | badChecksum
deriving DecidableEq, Repr

/-- The slot-level error (R124).  It records no value. -/
inductive FieldError where
  | fieldDecodeFailure
deriving DecidableEq, Repr

/-- The error kinds of the taxonomy with the byte source's `IoError` (R121, R126). -/
inductive ErrorKind where
  | insufficientBytes
  | badChecksum
  | fieldDecodeFailure
  | unrecognizedCategory
  | ioError
deriving DecidableEq, Repr

/-- An entry of the log trace: the error value itself (spec/10_state.md R24, D22). -/
inductive LogEntry where
  | frameError (e : FrameError)
  | ioError
deriving DecidableEq, Repr

/-- The kind of a subfield: unsigned, signed or float (spec/43_field_codec_dispatch.md R107, R108). -/
inductive Kind where
  | u
  | i
  | f
deriving DecidableEq, Repr

/-- The ten primitive subfields (R108): a kind with a size in bytes. -/
inductive Prim where
  | u1 | u2 | u4 | u8
  | i1 | i2 | i4 | i8
  | f4 | f8
deriving DecidableEq, Repr

/-- Subfield (R107). -/
structure Subfield where
  name : String
  prim : Prim
deriving DecidableEq, Repr

/-- RecordType (R107): the two identifying bytes (spec/30_encoding.md R61) and the layout. -/
structure RecordType where
  categoryId : Byte
  typeId : Byte
  name : String
  layout : List Subfield
deriving DecidableEq, Repr

/-- The class of a category (R107). -/
inductive CategoryClass where
  | data
  | nonData
deriving DecidableEq, Repr

/-- Category (R107). -/
structure Category where
  id : Byte
  cls : CategoryClass
  slots : List RecordType
deriving DecidableEq, Repr

/-- The OPEN part of `CATALOG` (spec/00_scope.md R8): the slots of the three data categories of
spec/30_encoding.md R58.  The fixed skeleton is added by `Catalog.categories`. -/
structure Catalog where
  imu : List RecordType
  gnss : List RecordType
  filter : List RecordType
deriving DecidableEq, Repr

/-- A subfield's value, carried as its bit pattern `bits` of `size` bytes (R111, D23). -/
structure SubValue where
  kind : Kind
  size : Nat
  bits : Nat
deriving DecidableEq, Repr

/-- TypedRecord (R110). -/
structure TypedRecord where
  categoryId : Byte
  typeId : Byte
  values : List SubValue
deriving DecidableEq, Repr

/-- One slot of an AggregateResult: a TypedRecord or empty (R115). -/
structure Slot where
  typeId : Byte
  value : Option TypedRecord
deriving DecidableEq, Repr

/-- What DISPATCH returns (R115, R116). -/
inductive DispatchResult where
  | aggregate (category : Byte) (slots : List Slot)
  | unrecognized (category : Byte)
deriving DecidableEq, Repr

/-- What the handler is given: the pair `(f, DISPATCH(f))` (spec/40_synchronizer.md R72, D11). -/
structure Delivery where
  frame : RawFrame
  dispatch : DispatchResult
deriving DecidableEq, Repr

/-- An answer of the byte source to one read (spec/10_state.md R22). -/
inductive SourceAnswer where
  | bytes (s : List Byte)
  | timeout
  | ioError
deriving DecidableEq, Repr

/-- How one handler invocation ends (spec/60_exceptions.md R136, spec/93_implementation_defined.md U13). -/
inductive HandlerAnswer where
  | returns
  | never
deriving DecidableEq, Repr

end Sys2Proof
end

