-- ==== Sys2Proof/Config.lean ====
section
/-! DEFINITION. What is fixed before the first step: the constants of the hardware, the OPEN parameters of
spec/00_scope.md R8 as uninterpreted constants, and the one free value of the model. -/

namespace Sys2Proof

/-! The constants of R8 and R9.  The literals are unaudited (R3, D21): each stands here only. -/

/-- First magic byte (R3, R8). -/
def Config.sync0 : Byte := 0x75
/-- Second magic byte (R3, R8). -/
def Config.sync1 : Byte := 0x65
/-- `MIN_FRAME` (R8). -/
def Config.minFrame : Nat := 6
/-- `HDR_LEN` (R8). -/
def Config.hdrLen : Nat := 3
/-- `CK_LEN` (R8). -/
def Config.ckLen : Nat := 2
/-- `REC_HDR_LEN` (R8). -/
def Config.recHdrLen : Nat := 2
/-- The largest number a length byte holds (spec/30_encoding.md R54). -/
def Config.maxLengthByte : Nat := 255
/-- The longest well-formed record: a payload's bytes less its own length byte (R54). -/
def Config.maxRecord : Nat := Config.maxLengthByte - 1
/-- The most data bytes a record holds (R54). -/
def Config.maxRecordData : Nat := Config.maxRecord - Config.recHdrLen
/-- `BODY_EXTRA` (R8): the single place to change should `declared_length` not count itself (D2, U17). -/
def Config.bodyExtra : Nat := 1
/-- `BUF_CAP` (R8). -/
def Config.bufCap : Nat := 260
/-- `IOERR_RETRY_LIMIT` (R8): no limit, the reference behaviour (R133, D14). -/
def Config.ioerrRetryLimit : Option Nat := none

/-! The category ids of spec/30_encoding.md R58. -/

def Config.catImu : Byte := 0x80
def Config.catGnss : Byte := 0x81
def Config.catFilter : Byte := 0x82
def Config.cat01 : Byte := 0x01
def Config.cat0C : Byte := 0x0C
def Config.cat0D : Byte := 0x0D
def Config.cat7F : Byte := 0x7F

/-- The seven known category ids, data categories first (R58). -/
def Config.knownCategories : List Byte :=
  [Config.catImu, Config.catGnss, Config.catFilter, Config.cat01, Config.cat0C, Config.cat0D, Config.cat7F]

/-- The OPEN parameters a run is over (R8): held in State and written by no step (spec/10_state.md R30). -/
structure Config.Params where
  catalog : Catalog
  rxChunk : Nat
deriving DecidableEq, Repr

/-- OPEN: what the schema supplies as the slots of a data category (R107).  Uninterpreted. -/
opaque Config.openSlots : Byte → List RecordType

/-- OPEN: `RX_CHUNK` less one (R8 says only that `RX_CHUNK` is at least 1).  Uninterpreted. -/
opaque Config.rxChunkExtra : Nat

/-- The first slot of each type id: R107 makes the type ids of a category distinct. -/
def Config.distinctSlots : List Byte → List RecordType → List RecordType
  | _, [] => []
  | seen, rt :: rest =>
    if rt.typeId ∈ seen then Config.distinctSlots seen rest
    else rt :: Config.distinctSlots (rt.typeId :: seen) rest

/-- The supplied slots of category `id`, each belonging to it (R107). -/
def Config.slotsOf (id : Byte) : List RecordType :=
  Config.distinctSlots [] ((Config.openSlots id).map fun rt => { rt with categoryId := id })

/-- The parameters of this machine: uninterpreted but for the constraints of R8 and R107. -/
def Config.params : Config.Params :=
  { catalog :=
      { imu := Config.slotsOf Config.catImu
        gnss := Config.slotsOf Config.catGnss
        filter := Config.slotsOf Config.catFilter }
    rxChunk := Config.rxChunkExtra + 1 }

/-- FREE VALUE: the length byte FIELD.ENCODE writes when `2 + NEED` does not fit a byte.  R113 states
`2 + NEED(layout)` and nothing for a sum above 255 (assumption log 21).  Uninterpreted. -/
opaque Config.freeLengthByte : Nat → Byte

end Sys2Proof
end

