-- ==== Sys2Proof/Machine/Operands.lean ====
section
/-! DEFINITION. The operand forms: slices, big-endian numbers, length fields, the wire bytes of a record, of a
checksum and of a frame (spec/00_scope.md R10, R11; spec/20_memory.md R37; spec/30_encoding.md R48 to R53), the
sizes and kinds of subfields (spec/43_field_codec_dispatch.md R108), and the catalog in the shape of R107. -/

namespace Sys2Proof

/-- `s[i..j]`: the bytes `s[i]` to `s[j-1]` (R10). -/
def slice (s : List Byte) (i j : Nat) : List Byte := (s.drop i).take (j - i)

/-- `s[i]` (R10).  Every use is below a bound checked before (R102). -/
def byteAt (s : List Byte) (i : Nat) : Byte := s.getD i 0

/-- `be(s) = sum over i of s[i] * 256^(k-1-i)` (R11). -/
def be (s : List Byte) : Nat := s.foldl (fun n v => 256 * n + v.toNat) 0

/-- The low `k` bytes of `n`, most significant first (R37, R113). -/
def beBytes : Nat → Nat → List Byte
  | 0, _ => []
  | k + 1, n => BitVec.ofNat 8 (n / 256 ^ k) :: beBytes k n

/-- The remaining-bytes count a length byte gives: `L + BODY_EXTRA`, computed without wrap (R53, R69). -/
def remOf (L : Byte) : Nat := L.toNat + Config.bodyExtra

/-- A record on the wire: `[length][descriptor][data ...]` (R48). -/
def RawRecord.bytes (r : RawRecord) : List Byte := r.length :: r.descriptor :: r.data

/-- `length == 2 + len(data)`, with the 2 of `REC_HDR_LEN` (R48). -/
abbrev RawRecord.LengthCounts (r : RawRecord) : Prop := r.length.toNat = Config.recHdrLen + r.data.length

/-- A checksum on the wire: `msb` first (R37, R50). -/
def Checksum.bytes (c : Checksum) : List Byte := [c.msb, c.lsb]

/-- The records of a payload on the wire, packed in order (R49). -/
def recordsBytes (rs : List RawRecord) : List Byte := rs.flatMap RawRecord.bytes

/-- The bytes of a frame that its checksum covers: offsets 0 to `L + 2` (R52, R83). -/
def RawFrame.coveredBytes (f : RawFrame) : List Byte :=
  [f.header.sync0, f.header.sync1, f.header.setDescriptor, f.declaredLength] ++ recordsBytes f.records

/-- The number of payload bytes the records' own length bytes declare, the length byte included (R49). -/
def payloadLength (rs : List RawRecord) : Nat := 1 + (rs.map fun r => r.length.toNat).sum

/-- The kind of a primitive subfield (R108). -/
def Prim.kind : Prim → Kind
  | .u1 | .u2 | .u4 | .u8 => .u
  | .i1 | .i2 | .i4 | .i8 => .i
  | .f4 | .f8 => .f

/-- `size(sf)` in bytes (R108). -/
def Prim.size : Prim → Nat
  | .u1 | .i1 => 1
  | .u2 | .i2 => 2
  | .u4 | .i4 | .f4 => 4
  | .u8 | .i8 | .f8 => 8

/-- The primitive subfield of a kind and a size, where there is one (R108: floats have 4 or 8 bytes). -/
def primOf : Kind → Nat → Option Prim
  | .u, 1 => some .u1
  | .u, 2 => some .u2
  | .u, 4 => some .u4
  | .u, 8 => some .u8
  | .i, 1 => some .i1
  | .i, 2 => some .i2
  | .i, 4 => some .i4
  | .i, 8 => some .i8
  | .f, 4 => some .f4
  | .f, 8 => some .f8
  | _, _ => none

/-- The catalog as a list of categories: the fixed skeleton of R58 and R107 around the OPEN slots. -/
def Catalog.categories (c : Catalog) : List Category :=
  [ { id := Config.catImu, cls := .data, slots := c.imu },
    { id := Config.catGnss, cls := .data, slots := c.gnss },
    { id := Config.catFilter, cls := .data, slots := c.filter },
    { id := Config.cat01, cls := .nonData, slots := [] },
    { id := Config.cat0C, cls := .nonData, slots := [] },
    { id := Config.cat0D, cls := .nonData, slots := [] },
    { id := Config.cat7F, cls := .nonData, slots := [] } ]

/-- The Category of the catalog with a given id (R115, R116). -/
def Catalog.category (c : Catalog) (id : Byte) : Option Category :=
  c.categories.find? fun k => k.id = id

end Sys2Proof
end

