-- ==== Sys2Proof/Machine/Codec.lean ====
section
/-! DEFINITION. The pure units of LSFS: the checksum (spec/41_checksum.md), the frame codec and record parser
(spec/42_frame_codec.md), the field codec and record dispatch (spec/43_field_codec_dispatch.md).  Every function
here is total and touches no state. -/

namespace Sys2Proof

/-! ### CSUM -/

/-- `CSUM.STEP(a, b, v)` (R82): the new `b` uses the new `a`; both sums are modulo 256. -/
def csumStep (ab : Byte × Byte) (v : Byte) : Byte × Byte :=
  let a' := ab.1 + v
  (a', ab.2 + a')

/-- `CSUM(s)` (R81): `CSUM.STEP` over the bytes in order of increasing offset, from `(0, 0)`. -/
def csum (s : List Byte) : Byte × Byte := s.foldl csumStep (0, 0)

/-- The bytes a checksum at the end of `s` covers: `s[0..n-2]` (R83, R84). -/
def covered (s : List Byte) : List Byte := slice s 0 (s.length - Config.ckLen)

/-- The last two bytes of `s`: `(msb, lsb)` (R83, R84). -/
def trailer (s : List Byte) : Byte × Byte :=
  (byteAt s (s.length - Config.ckLen), byteAt s (s.length - Config.ckLen + 1))

/-- `CSUM.CHECK(s)` (R84).  An input too short to checksum fails the check (R121, R123; assumption log 16). -/
def csumCheck (s : List Byte) : Bool :=
  decide (Config.ckLen ≤ s.length) && decide (trailer s = csum (covered s))

/-! ### REC.PARSE -/

/-- What REC.PARSE's scratch holds when it returns (R19, R94): the current offset, the records found so far, and
the error where there is one. -/
structure RecScan where
  off : Nat
  recs : List RawRecord
  error : Option FrameError
deriving DecidableEq, Repr

/-- The record at payload offset `off` with length byte `rl` (R94). -/
def recordAt (P : List Byte) (off rl : Nat) : RawRecord :=
  { length := byteAt P off
    descriptor := byteAt P (off + 1)
    data := slice P (off + Config.recHdrLen) (off + rl) }

/-- The loop of R94 from offset `off` with records `recs`; `lim = min(L, m)`.  Each pass adds at least 2 to `off`,
so `fuel = L` passes are never used up (`recLoop_fuel` in Laws). -/
def recLoop (P : List Byte) (L lim : Nat) : Nat → Nat → List RawRecord → RecScan
  | 0, off, recs => ⟨off, recs, none⟩
  | fuel + 1, off, recs =>
    if off < L then
      let avail := lim - off
      if avail < Config.recHdrLen then ⟨off, recs, some (.insufficientBytes Config.recHdrLen avail)⟩
      else
        let rl := (byteAt P off).toNat
        if rl < Config.recHdrLen then ⟨off, recs, some (.insufficientBytes Config.recHdrLen rl)⟩
        else if avail < rl then ⟨off, recs, some (.insufficientBytes rl avail)⟩
        else recLoop P L lim fuel (off + rl) (recs ++ [recordAt P off rl])
    else ⟨off, recs, none⟩

/-- REC.PARSE run to its end: the scratch it leaves (R94, R97, R98). -/
def recScan (P : List Byte) : RecScan :=
  let L := (byteAt P 0).toNat
  if L = 0 then ⟨0, [], some (.insufficientBytes 1 0)⟩
  else recLoop P L (min L P.length) L 1 []

/-- `REC.PARSE(P)` (R94): the ordered list of records, or an error and no partial result (R99). -/
def recParse (P : List Byte) : Res FrameError (List RawRecord) :=
  match (recScan P).error with
  | some e => .err e
  | none => .ok (recScan P).recs

/-! ### FRAME.DECODE and FRAME.ENCODE -/

/-- The payload region `bytes[3..n-2]` (R93). -/
def payloadRegion (bytes : List Byte) : List Byte :=
  slice bytes Config.hdrLen (bytes.length - Config.ckLen)

/-- `FRAME.DECODE(bytes)` (R89 to R93): length, checksum, header, payload, in this order (R127). -/
def frameDecode (bytes : List Byte) : Res FrameError RawFrame :=
  if bytes.length < Config.minFrame then .err (.insufficientBytes Config.minFrame bytes.length)
  else if csumCheck bytes then
    match recParse (payloadRegion bytes) with
    | .err e => .err e
    | .ok recs =>
      .ok
        { header := { sync0 := byteAt bytes 0, sync1 := byteAt bytes 1, setDescriptor := byteAt bytes 2 }
          declaredLength := byteAt (payloadRegion bytes) 0
          records := recs
          checksum := { msb := (trailer bytes).1, lsb := (trailer bytes).2 } }
  else .err .badChecksum

/-- `FRAME.ENCODE(f)` (R100): stored bytes concatenated, nothing computed (R88). -/
def frameEncode (f : RawFrame) : List Byte := f.coveredBytes ++ f.checksum.bytes

/-! ### The field codec -/

/-- `OFFSETS` from a starting offset (R109). -/
def offsetsFrom : Nat → List Subfield → List Nat
  | _, [] => []
  | o, sf :: rest => o :: offsetsFrom (o + sf.prim.size) rest

/-- `OFFSETS(layout)` (R109). -/
def offsets (layout : List Subfield) : List Nat := offsetsFrom 0 layout

/-- `NEED(layout)`: the number of data bytes the whole layout takes, 0 for an empty layout (R109). -/
def need (layout : List Subfield) : Nat := (layout.map fun sf => sf.prim.size).sum

/-- `VALUE(kind, raw)`: the bit pattern `be(raw)` (R111, D23). -/
def valueOf (kind : Kind) (raw : List Byte) : SubValue :=
  { kind := kind, size := raw.length, bits := be raw }

/-- The numeric reading of a value (R111): unsigned as is, signed as two's complement (G1, assumption log 20);
a float has the bit pattern only. -/
def SubValue.number (v : SubValue) : Option Int :=
  match v.kind with
  | .u => some (v.bits : Int)
  | .i => if 2 * v.bits < 256 ^ v.size then some (v.bits : Int) else some ((v.bits : Int) - (256 ^ v.size : Nat))
  | .f => none

/-- The loop of FIELD.DECODE over subfields with their offsets (R110). -/
def decodeSubfields : List (Subfield × Nat) → List Byte → Res FieldError (List SubValue)
  | [], _ => .ok []
  | (sf, o) :: rest, d =>
    if d.length < o + sf.prim.size then .err .fieldDecodeFailure
    else
      match decodeSubfields rest d with
      | .err e => .err e
      | .ok vs => .ok (valueOf sf.prim.kind (slice d o (o + sf.prim.size)) :: vs)

/-- `FIELD.DECODE(rt, rec)` (R110); bytes beyond `NEED` are not looked at (R112). -/
def fieldDecode (rt : RecordType) (r : RawRecord) : Res FieldError TypedRecord :=
  match decodeSubfields (rt.layout.zip (offsets rt.layout)) r.data with
  | .err e => .err e
  | .ok vs => .ok { categoryId := rt.categoryId, typeId := rt.typeId, values := vs }

/-- The length byte of a record with `k` data bytes (R113): `2 + k`; a free value where that exceeds a byte. -/
def lengthByte (k : Nat) : Byte :=
  if Config.recHdrLen + k < 256 then BitVec.ofNat 8 (Config.recHdrLen + k)
  else Config.freeLengthByte (Config.recHdrLen + k)

/-- `FIELD.ENCODE` (R113): each subfield's bytes, most significant first, in layout order with no padding. -/
def fieldEncode (t : TypedRecord) : RawRecord :=
  { length := lengthByte (t.values.map fun v => v.size).sum
    descriptor := t.typeId
    data := t.values.flatMap fun v => beBytes v.size v.bits }

/-! ### DISPATCH -/

/-- `map[k] <- r` (R114). -/
def mapSet (k : Byte) (r : RawRecord) : List (Byte × RawRecord) → List (Byte × RawRecord)
  | [] => [(k, r)]
  | (k', r') :: rest => if k' = k then (k, r) :: rest else (k', r') :: mapSet k r rest

/-- `map[k]` (R115). -/
def mapGet (k : Byte) : List (Byte × RawRecord) → Option RawRecord
  | [] => none
  | (k', r') :: rest => if k' = k then some r' else mapGet k rest

/-- DISPATCH step 1 (R114): the records by type id, the later one overwriting the earlier. -/
def indexRecords (recs : List RawRecord) : List (Byte × RawRecord) :=
  recs.foldl (fun m r => mapSet r.descriptor r m) []

/-- One slot (R115): the decoded record, or empty where the type id is absent or the decode fails (R130). -/
def fillSlot (m : List (Byte × RawRecord)) (rt : RecordType) : Slot :=
  { typeId := rt.typeId
    value :=
      match mapGet rt.typeId m with
      | none => none
      | some r =>
        match fieldDecode rt r with
        | .ok t => some t
        | .err _ => none }

/-- DISPATCH of records under a category id (R114 to R117). -/
def dispatchOn (c : Catalog) (id : Byte) (recs : List RawRecord) : DispatchResult :=
  match c.category id with
  | none => .unrecognized id
  | some k => .aggregate k.id (k.slots.map (fillSlot (indexRecords recs)))

/-- `DISPATCH(f)` (R114 to R117). -/
def dispatch (c : Catalog) (f : RawFrame) : DispatchResult :=
  dispatchOn c f.header.setDescriptor f.records

/-- `Deliver(f)` with the downstream stage (R72, R106). -/
def deliver (c : Catalog) (f : RawFrame) : Delivery := { frame := f, dispatch := dispatch c f }

end Sys2Proof
end

