-- ==== Sys2Proof/Machine/Flags.lean ====
section
/-! DEFINITION. The outcome codes (spec/10_state.md R27, spec/60_exceptions.md R126).  The block has no condition
codes; `frame_ok` and `err_code` are the only flags, and both are functions of one decode result. -/

namespace Sys2Proof

/-- `err_code` of a kind (R126); 0 stands for none. -/
def ErrorKind.code : ErrorKind → Nat
  | .insufficientBytes => 1
  | .badChecksum => 2
  | .fieldDecodeFailure => 3
  | .unrecognizedCategory => 4
  | .ioError => 5

/-- The kind of a frame-level error (R121). -/
def FrameError.kind : FrameError → ErrorKind
  | .insufficientBytes _ _ => .insufficientBytes
  | .badChecksum => .badChecksum

/-- The kind of a slot-level error (R121). -/
def FieldError.kind : FieldError → ErrorKind
  | .fieldDecodeFailure => .fieldDecodeFailure

/-- The kind a log entry reports (R24, R128, R133). -/
def LogEntry.kind : LogEntry → ErrorKind
  | .frameError e => e.kind
  | .ioError => .ioError

/-- The kind a dispatch result carries, where it carries one (R125). -/
def DispatchResult.kind : DispatchResult → Option ErrorKind
  | .aggregate _ _ => none
  | .unrecognized _ => some .unrecognizedCategory

/-- `frame_ok` of a decode result (R27). -/
def frameOkOf : Res FrameError RawFrame → Bool
  | .ok _ => true
  | .err _ => false

/-- `err_code` of a decode result (R27, R126). -/
def errCodeOf : Res FrameError RawFrame → Nat
  | .ok _ => 0
  | .err e => e.kind.code

end Sys2Proof
end

