-- ==== Sys2Proof/Syntax.lean ====
section
/-! DEFINITION. The instructions of LSFS: one constructor per row of spec/opcode_table.json. -/

namespace Sys2Proof

/-- The rows of spec/opcode_table.json, in the table's order.  The operands of a byte class are the byte's own
bits; those of a format its fields; those of an operation the arguments its rule names. -/
inductive Instr where
  /-- SYNC0.HIT, R64. -/
  | sync0Hit
  /-- SYNC0.MISS, R65. -/
  | sync0Miss (v : Byte)
  /-- SYNC1.HIT, R66. -/
  | sync1Hit
  /-- SYNC1.MISS, R67. -/
  | sync1Miss (v : Byte)
  /-- DESC, R68. -/
  | desc (category : Byte)
  /-- LEN, R69. -/
  | len (L : Byte)
  /-- BODY, R70. -/
  | body (v : Byte)
  /-- BODY.LAST, R70 and R71. -/
  | bodyLast (v : Byte)
  /-- READ, R75. -/
  | read (bs : List Byte)
  /-- TIMEOUT, R76. -/
  | timeout
  /-- IOERROR, R77. -/
  | ioError
  /-- FRAME, R52. -/
  | frame (f : RawFrame)
  /-- REC, R48. -/
  | record (r : RawRecord)
  /-- CK, R50. -/
  | ck (msb lsb : Byte)
  /-- CAT.0x80, R58. -/
  | cat80
  /-- CAT.0x81, R58. -/
  | cat81
  /-- CAT.0x82, R58. -/
  | cat82
  /-- CAT.0x01, R117. -/
  | cat01
  /-- CAT.0x0C, R117. -/
  | cat0C
  /-- CAT.0x0D, R117. -/
  | cat0D
  /-- CAT.0x7F, R117. -/
  | cat7F
  /-- CAT.OTHER, R116. -/
  | catOther (category : Byte)
  /-- CSUM, R81. -/
  | csum (bytes : List Byte)
  /-- CSUM.STEP, R82: the two accumulators are those of State. -/
  | csumStep (v : Byte)
  /-- CSUM.CHECK, R84. -/
  | csumCheck (bytes : List Byte)
  /-- FRAME.DECODE, R89. -/
  | frameDecode (bytes : List Byte)
  /-- REC.PARSE, R94. -/
  | recParse (payload : List Byte)
  /-- FRAME.ENCODE, R100. -/
  | frameEncode (f : RawFrame)
  /-- OFFSETS, R109. -/
  | offsets (layout : List Subfield)
  /-- FIELD.DECODE, R110. -/
  | fieldDecode (rt : RecordType) (r : RawRecord)
  /-- VALUE, R111. -/
  | value (kind : Kind) (raw : List Byte)
  /-- FIELD.ENCODE, R113. -/
  | fieldEncode (t : TypedRecord)
  /-- DISPATCH, R114 to R117. -/
  | dispatch (f : RawFrame)
  /-- COMPLETE, R71: its operand is the whole of `buf`. -/
  | complete
  /-- HANDLER, R72. -/
  | handler (d : Delivery)
deriving DecidableEq, Repr

end Sys2Proof
end

