-- ==== Sys2Proof/Machine/State.lean ====
section
/-! DEFINITION. The state of LSFS as plain data (spec/10_state.md), the reasons a step can stop, and the state
after reset. -/

namespace Sys2Proof.Machine

/-- The value a direct call of an operation returned (spec/00_scope.md R11, `return`). -/
inductive Ret where
  /-- CSUM and CSUM.STEP: the pair `(a, b)`. -/
  | sums (a b : Byte)
  /-- CSUM.CHECK: passes or fails. -/
  | check (pass : Bool)
  /-- FRAME.DECODE. -/
  | frame (r : Res FrameError RawFrame)
  /-- REC.PARSE. -/
  | records (r : Res FrameError (List RawRecord))
  /-- FRAME.ENCODE. -/
  | bytes (bs : List Byte)
  /-- OFFSETS: the table and NEED. -/
  | offsets (table : List Nat) (need : Nat)
  /-- FIELD.DECODE. -/
  | typed (r : Res FieldError TypedRecord)
  /-- VALUE: the bit pattern and its numeric reading. -/
  | value (v : SubValue) (number : Option Int)
  /-- FIELD.ENCODE. -/
  | record (r : RawRecord)
  /-- DISPATCH and the category rows. -/
  | dispatch (d : DispatchResult)
deriving DecidableEq, Repr

/-- The state.  Reset values are at `State.reset`. -/
structure State where
  /-- `st`, the sync state (R14). -/
  st : SyncState
  /-- `rem`, the remaining-bytes counter (R15). -/
  rem : Nat
  /-- `buf`, the frame buffer; a byte's index is its offset in the frame (R16, spec/20_memory.md R33). -/
  buf : List Byte
  /-- `cat`, the recorded category id (R17). -/
  cat : Byte
  /-- `a`, checksum accumulator (R18). -/
  a : Byte
  /-- `b`, checksum accumulator (R18). -/
  b : Byte
  /-- `off`, the record parser's offset (R19). -/
  off : Nat
  /-- `recs`, the record parser's list (R19). -/
  recs : List RawRecord
  /-- `rxq`, the input queue, oldest byte first (R20). -/
  rxq : List Byte
  /-- `frame_ok` of the last step (R27). -/
  frameOk : Bool
  /-- `err_code` of the last step (R27). -/
  errCode : Nat
  /-- `out`, the handler trace, oldest first (R23). -/
  out : List Delivery
  /-- `log`, the log trace, oldest first (R24). -/
  log : List LogEntry
  /-- The environment: the byte source's coming answers (R22; assumption log 3). -/
  source : List SourceAnswer
  /-- The environment: how the coming handler invocations end (assumption log 4). -/
  handlerAnswers : List HandlerAnswer
  /-- The environment: reset is asserted (spec/70_reset_and_hazards.md R142; assumption log 22). -/
  resetReq : Bool
  /-- The model's own: direct calls of operations, oldest first (assumption log 5). -/
  calls : List Instr
  /-- The model's own: what the last direct call returned (assumption log 5). -/
  ret : Option Ret
  /-- The OPEN parameters; written by no step (R30; assumption log 8). -/
  cfg : Config.Params
deriving DecidableEq, Repr

/-- Why the machine stops.  The block has no fault state of its own (spec/60_exceptions.md R131). -/
inductive Fault where
  /-- Raised by HANDLER, COMPLETE, BODY.LAST and the formats: the handler never returns, and the block is stuck for
  good (spec/70_reset_and_hazards.md R149, U13).  Safe: the machine does stop. -/
  | handlerNeverReturns
  /-- Raised by the eight byte-class rows: executed while `st`, `rem` or the byte selects another row of
  spec/30_encoding.md R56, so that no rule gives an effect.  Safe. -/
  | rowNotSelected
  /-- Raised by READ: a read while `rxq` is not empty (spec/20_memory.md R32: it is never issued).  Safe. -/
  | readOutOfTurn
  /-- Raised by READ: more bytes than `RX_CHUNK` (spec/10_state.md R22: no such answer exists).  Safe. -/
  | readTooLong
  /-- Raised by a consume step in `AwaitBody` with `rem = 0` (R15: never at a step boundary).  Safe. -/
  | remainingZero
deriving DecidableEq, Repr

/-- Why a step has no meaning. -/
inductive Refusal where
  /-- Raised by `exec` for an instruction without a meaning yet (none is left).  Safe. -/
  | notModelled (mnemonic : String)
deriving DecidableEq, Repr

/-- The outcome of a step. -/
abbrev Result := Host.Outcome State Fault Refusal

/-- The state right after reset (spec/10_state.md R29).  `rem`, `cat`, `off`, `recs`: assumption logs 6 and 7; the
environment's and the model's own fields: logs 3, 4, 5, 22; `cfg`: log 8. -/
def State.reset : State :=
  { st := .awaitSync0
    rem := 0
    buf := []
    cat := 0
    a := 0
    b := 0
    off := 0
    recs := []
    rxq := []
    frameOk := false
    errCode := 0
    out := []
    log := []
    source := []
    handlerAnswers := []
    resetReq := false
    calls := []
    ret := none
    cfg := Config.params }

end Sys2Proof.Machine
end

