-- ==== Sys2Proof/Machine/Ops.lean ====
section
/-! DEFINITION. The named operations over the state: the frame buffer and the input queue (spec/20_memory.md R32
to R35), the traces, the status outputs, the scratch registers, the handler, the entry into a frame-level error,
frame completion, and reset. -/

namespace Sys2Proof.Machine

/-! ### Memory: the frame buffer and the input queue -/

/-- The frame buffer as a memory: its addresses are the indexes 0 to `len(buf) - 1` (R31). -/
abbrev Memory := List Byte

/-- The buffer never holds more than `BUF_CAP` bytes (R35). -/
abbrev Memory.wf (m : Memory) : Prop := m.length ≤ Config.bufCap

/-- `MemRead`: the byte at offset `i` of the candidate frame, if there is one (R33). -/
def State.readBuf (s : State) (i : Nat) : Option Byte := s.buf[i]?

/-- `BufAppend(v)` (R33). -/
def State.bufAppend (s : State) (v : Byte) : State := { s with buf := s.buf ++ [v] }

/-- `BufClear()` (R34). -/
def State.bufClear (s : State) : State := { s with buf := [] }

/-- A read that returned `Bytes(s)` to an empty queue (R32). -/
def State.rxFill (s : State) (bs : List Byte) : State := { s with rxq := bs }

/-! ### Registers -/

/-- `st <- S` (spec/00_scope.md R11). -/
def State.setSt (s : State) (st : SyncState) : State := { s with st := st }

/-- `rem <- n` (spec/10_state.md R15). -/
def State.setRem (s : State) (n : Nat) : State := { s with rem := n }

/-- `cat <- v` (R17). -/
def State.setCat (s : State) (v : Byte) : State := { s with cat := v }

/-- The checksum accumulators (R18). -/
def State.setSums (s : State) (ab : Byte × Byte) : State := { s with a := ab.1, b := ab.2 }

/-- The record parser's scratch (R19). -/
def State.setScan (s : State) (sc : RecScan) : State := { s with off := sc.off, recs := sc.recs }

/-- The value a direct call returns (spec/00_scope.md R11). -/
def State.setRet (s : State) (r : Ret) : State := { s with ret := some r }

/-- `frame_ok` and `err_code` (R27). -/
def State.setStatus (s : State) (ok : Bool) (code : Nat) : State := { s with frameOk := ok, errCode := code }

/-- The status outputs of a step that completes no frame (R27; assumption log 11). -/
def State.clearStatus (s : State) : State := s.setStatus false 0

/-- The scratch of a decode is gone when the decode is over (R18, R19, R21; assumption log 12). -/
def State.clearScratch (s : State) : State := { s with a := 0, b := 0, off := 0, recs := [] }

/-! ### Traces -/

/-- `Log(e)` (R24). -/
def State.logAppend (s : State) (e : LogEntry) : State := { s with log := s.log ++ [e] }

/-- An entry of the handler trace (R23). -/
def State.outAppend (s : State) (d : Delivery) : State := { s with out := s.out ++ [d] }

/-! ### Outcomes -/

/-- One action after another: the second runs where the first answers a next state. -/
def andThen (o : Result) (k : State → Result) : Result :=
  match o with
  | .next s => k s
  | .fault f => .fault f
  | .refused r => .refused r

/-- A byte-class row's effect, where the row is the one R56 selects (assumption log 15). -/
def whenSelected (c : Bool) (o : Result) : Result :=
  if c then o else .fault .rowNotSelected

/-! ### The handler, frame-level errors, completion -/

/-- `Handler(x)` (spec/40_synchronizer.md R72): append to `out` and wait for the return (R149). -/
def invokeHandler (d : Delivery) (s : State) : Result :=
  match s.handlerAnswers with
  | [] => .next (s.outAppend d)
  | .returns :: rest => .next { s.outAppend d with handlerAnswers := rest }
  | .never :: _ => .fault .handlerNeverReturns

/-- The end of a candidate frame, accepted or not (R71): the buffer is emptied and scanning resumes in
`AwaitSync0`.  There is no other return from an error (spec/60_exceptions.md R129). -/
def State.resume (s : State) : State := (s.bufClear.setSt .awaitSync0).clearScratch

/-- FRAME-LEVEL ERROR ENTRY (spec/60_exceptions.md R128): logged, the candidate discarded, scanning resumed; nothing
is saved and the handler is not invoked. -/
def takeFrameError (e : FrameError) (s : State) : State :=
  ((s.logAppend (.frameError e)).resume).setStatus false e.kind.code

/-- `Complete()` (R71). -/
def complete (s : State) : Result :=
  match frameDecode s.buf with
  | .ok f => andThen (invokeHandler (deliver s.cfg.catalog f) s) fun t => .next (t.resume.setStatus true 0)
  | .err e => .next (takeFrameError e s)

/-! ### The scratch a decode leaves -/

/-- The registers FRAME.DECODE has written when it returns (R18, R19): `a` and `b` once the length check is passed,
`off` and `recs` once the checksum is passed. -/
def State.decodeScratch (s : State) (bytes : List Byte) : State :=
  if bytes.length < Config.minFrame then s
  else if csumCheck bytes then (s.setSums (csum (covered bytes))).setScan (recScan (payloadRegion bytes))
  else s.setSums (csum (covered bytes))

/-! ### Reset -/

/-- Reset asserted (spec/70_reset_and_hazards.md R142): the block is in the state of spec/10_state.md R29; what the
environment is about to do, and the parameters, are not the block's. -/
def State.blockReset (s : State) : State :=
  { State.reset with
    source := s.source
    handlerAnswers := s.handlerAnswers
    calls := s.calls
    cfg := s.cfg }

end Sys2Proof.Machine
end

