-- ==== Sys2Proof/Machine/Categories.lean ====
section
/-! DEFINITION. The category ids (spec/30_encoding.md R58): the result of dispatching the record list the parser
holds (`recs`) under the id (spec/43_field_codec_dispatch.md R115 to R117; assumption log 14). -/

namespace Sys2Proof.Machine

/-- The dispatch of `recs` under category `id`, returned (R114 to R117). -/
def returnDispatch (id : Byte) (s : State) : State := s.setRet (.dispatch (dispatchOn s.cfg.catalog id s.recs))

/-- CAT.0x80, IMU (R58). -/
def execCat80 (s : State) : Result := .next (returnDispatch Config.catImu s)

/-- CAT.0x81, GNSS (R58). -/
def execCat81 (s : State) : Result := .next (returnDispatch Config.catGnss s)

/-- CAT.0x82, FILTER (R58). -/
def execCat82 (s : State) : Result := .next (returnDispatch Config.catFilter s)

/-- CAT.0x01, non-data: recognized, no slots (R117). -/
def execCat01 (s : State) : Result := .next (returnDispatch Config.cat01 s)

/-- CAT.0x0C, non-data (R117). -/
def execCat0C (s : State) : Result := .next (returnDispatch Config.cat0C s)

/-- CAT.0x0D, non-data (R117). -/
def execCat0D (s : State) : Result := .next (returnDispatch Config.cat0D s)

/-- CAT.0x7F, non-data (R117). -/
def execCat7F (s : State) : Result := .next (returnDispatch Config.cat7F s)

/-- CAT.OTHER (R116): unrecognized, no slots. -/
def execCatOther (id : Byte) (s : State) : Result := .next (returnDispatch id s)

end Sys2Proof.Machine
end

