-- ==== Sys2Proof/Machine/Synchronizer.lean ====
section
/-! DEFINITION. The byte classes: the synchronizer's transitions (spec/40_synchronizer.md R64 to R71).  The byte has
been popped by the fetch (R63); each row appends it first (spec/20_memory.md R33). -/

namespace Sys2Proof.Machine

/-- SYNC0.HIT (R64). -/
def execSync0Hit (s : State) : Result :=
  whenSelected (s.st = .awaitSync0) (.next ((s.bufAppend Config.sync0).setSt .awaitSync1))

/-- SYNC0.MISS (R65): the byte just appended is dropped. -/
def execSync0Miss (v : Byte) (s : State) : Result :=
  whenSelected (s.st = .awaitSync0 ∧ v ≠ Config.sync0) (.next ((s.bufAppend v).bufClear.setSt .awaitSync0))

/-- SYNC1.HIT (R66). -/
def execSync1Hit (s : State) : Result :=
  whenSelected (s.st = .awaitSync1) (.next ((s.bufAppend Config.sync1).setSt .awaitDescriptor))

/-- SYNC1.MISS (R67): both bytes are dropped, and `v = SYNC0` is not looked at again (R74). -/
def execSync1Miss (v : Byte) (s : State) : Result :=
  whenSelected (s.st = .awaitSync1 ∧ v ≠ Config.sync1) (.next ((s.bufAppend v).bufClear.setSt .awaitSync0))

/-- DESC (R68). -/
def execDesc (v : Byte) (s : State) : Result :=
  whenSelected (s.st = .awaitDescriptor) (.next (((s.bufAppend v).setCat v).setSt .awaitLength))

/-- LEN (R69). -/
def execLen (v : Byte) (s : State) : Result :=
  whenSelected (s.st = .awaitLength) (.next (((s.bufAppend v).setRem (remOf v)).setSt .awaitBody))

/-- BODY (R70): bytes remain after this one. -/
def execBody (v : Byte) (s : State) : Result :=
  whenSelected (s.st = .awaitBody ∧ 2 ≤ s.rem) (.next ((s.bufAppend v).setRem (s.rem - 1)))

/-- BODY.LAST (R70, R71): the byte that brings `rem` to 0 completes the frame in the same step (C1, D2). -/
def execBodyLast (v : Byte) (s : State) : Result :=
  whenSelected (s.st = .awaitBody ∧ s.rem = 1) (complete ((s.bufAppend v).setRem 0))

/-- The consume step's case on `st` (R63), for a byte already popped. -/
def consumeByte (v : Byte) (s : State) : Result :=
  match s.st with
  | .awaitSync0 => if v = Config.sync0 then execSync0Hit s else execSync0Miss v s
  | .awaitSync1 => if v = Config.sync1 then execSync1Hit s else execSync1Miss v s
  | .awaitDescriptor => execDesc v s
  | .awaitLength => execLen v s
  | .awaitBody =>
    if s.rem = 0 then .fault .remainingZero
    else if s.rem = 1 then execBodyLast v s
    else execBody v s

/-- Consume steps over bytes in order, each with its own status outputs (R27, R63). -/
def consumeBytes : List Byte → State → Result
  | [], s => .next s
  | v :: vs, s => andThen (consumeByte v s.clearStatus) (consumeBytes vs)

end Sys2Proof.Machine
end

