-- ==== Sys2Proof/Machine/Formats.lean ====
section
/-! DEFINITION. The wire formats (spec/30_encoding.md R48, R50, R52).  Executing a format is receiving its bytes,
lowest offset first (spec/20_memory.md R36), in whatever sync state the block is (assumption log 13). -/

namespace Sys2Proof.Machine

/-- FRAME (R52): header, length, records, checksum. -/
def execFrame (f : RawFrame) (s : State) : Result := consumeBytes (frameEncode f) s

/-- REC (R48): length, descriptor, data. -/
def execRecord (r : RawRecord) (s : State) : Result := consumeBytes r.bytes s

/-- CK (R50): `msb`, then `lsb`. -/
def execCk (msb lsb : Byte) (s : State) : Result := consumeBytes (Checksum.bytes ⟨msb, lsb⟩) s

end Sys2Proof.Machine
end

