-- ==== Sys2Proof/Machine/Operations.lean ====
section
/-! DEFINITION. The operations as direct calls: each writes the registers its rule names and returns its result in
`ret` (assumption log 5). -/

namespace Sys2Proof.Machine

/-- CSUM (spec/41_checksum.md R81). -/
def execCsum (bytes : List Byte) (s : State) : Result :=
  .next ((s.setSums (csum bytes)).setRet (.sums (csum bytes).1 (csum bytes).2))

/-- CSUM.STEP (R82) on the accumulators `a`, `b` of the state. -/
def execCsumStep (v : Byte) (s : State) : Result :=
  let ab := csumStep (s.a, s.b) v
  .next ((s.setSums ab).setRet (.sums ab.1 ab.2))

/-- CSUM.CHECK (R84): the accumulators hold the sum of the covered bytes. -/
def execCsumCheck (bytes : List Byte) (s : State) : Result :=
  .next ((s.setSums (csum (covered bytes))).setRet (.check (csumCheck bytes)))

/-- FRAME.DECODE (spec/42_frame_codec.md R89). -/
def execFrameDecode (bytes : List Byte) (s : State) : Result :=
  .next ((s.decodeScratch bytes).setRet (.frame (frameDecode bytes)))

/-- REC.PARSE (R94). -/
def execRecParse (payload : List Byte) (s : State) : Result :=
  .next ((s.setScan (recScan payload)).setRet (.records (recParse payload)))

/-- FRAME.ENCODE (R100). -/
def execFrameEncode (f : RawFrame) (s : State) : Result := .next (s.setRet (.bytes (frameEncode f)))

/-- OFFSETS (spec/43_field_codec_dispatch.md R109). -/
def execOffsets (layout : List Subfield) (s : State) : Result :=
  .next (s.setRet (.offsets (offsets layout) (need layout)))

/-- FIELD.DECODE (R110). -/
def execFieldDecode (rt : RecordType) (r : RawRecord) (s : State) : Result :=
  .next (s.setRet (.typed (fieldDecode rt r)))

/-- VALUE (R111). -/
def execValue (kind : Kind) (raw : List Byte) (s : State) : Result :=
  .next (s.setRet (.value (valueOf kind raw) (valueOf kind raw).number))

/-- FIELD.ENCODE (R113). -/
def execFieldEncode (t : TypedRecord) (s : State) : Result := .next (s.setRet (.record (fieldEncode t)))

/-- DISPATCH (R114 to R117) under the catalog of the state. -/
def execDispatch (f : RawFrame) (s : State) : Result := .next (s.setRet (.dispatch (dispatch s.cfg.catalog f)))

/-- COMPLETE (spec/40_synchronizer.md R71). -/
def execComplete (s : State) : Result := complete s

/-- HANDLER (R72). -/
def execHandler (d : Delivery) (s : State) : Result := invokeHandler d s

end Sys2Proof.Machine
end

