-- ==== Sys2Proof/Machine/Source.lean ====
section
/-! DEFINITION. The answers of the byte source (spec/40_synchronizer.md R75 to R77). -/

namespace Sys2Proof.Machine

/-- READ (R75): the bytes enter the empty queue.  No bytes is a `Timeout` (D20). -/
def execRead (bs : List Byte) (s : State) : Result :=
  if bs = [] then .next s
  else if s.rxq ≠ [] then .fault .readOutOfTurn
  else if s.cfg.rxChunk < bs.length then .fault .readTooLong
  else .next (s.rxFill bs)

/-- TIMEOUT (R76): not an error, no effect on the scan state. -/
def execTimeout (s : State) : Result := .next s

/-- IOERROR (R77): logged, nothing else. -/
def execIoError (s : State) : Result := .next (s.logAppend .ioError)

/-- The answer to the next read and the answers left.  A read takes at most `chunk` bytes of what the source has
ready and leaves the rest for the next read (R22; assumption log 9); a source with nothing more to say times out
(R154; assumption log 3). -/
def nextAnswer (chunk : Nat) : List SourceAnswer → SourceAnswer × List SourceAnswer
  | [] => (.timeout, [])
  | .bytes bs :: rest =>
    (.bytes (bs.take chunk), if bs.length ≤ chunk then rest else .bytes (bs.drop chunk) :: rest)
  | .timeout :: rest => (.timeout, rest)
  | .ioError :: rest => (.ioError, rest)

end Sys2Proof.Machine
end

