-- ==== Sys2Proof/Machine/Dispatch.lean ====
section
/-! DEFINITION. One arm per instruction. -/

namespace Sys2Proof.Machine

def exec (i : Instr) (s : State) : Host.Outcome State Fault Refusal :=
  match i with
  | .sync0Hit => Sys2Proof.Machine.execSync0Hit s
  | .sync0Miss v => Sys2Proof.Machine.execSync0Miss v s
  | .sync1Hit => Sys2Proof.Machine.execSync1Hit s
  | .sync1Miss v => Sys2Proof.Machine.execSync1Miss v s
  | .desc v => Sys2Proof.Machine.execDesc v s
  | .len v => Sys2Proof.Machine.execLen v s
  | .body v => Sys2Proof.Machine.execBody v s
  | .bodyLast v => Sys2Proof.Machine.execBodyLast v s
  | .read bs => Sys2Proof.Machine.execRead bs s
  | .timeout => Sys2Proof.Machine.execTimeout s
  | .ioError => Sys2Proof.Machine.execIoError s
  | .frame f => Sys2Proof.Machine.execFrame f s
  | .record r => Sys2Proof.Machine.execRecord r s
  | .ck msb lsb => Sys2Proof.Machine.execCk msb lsb s
  | .cat80 => Sys2Proof.Machine.execCat80 s
  | .cat81 => Sys2Proof.Machine.execCat81 s
  | .cat82 => Sys2Proof.Machine.execCat82 s
  | .cat01 => Sys2Proof.Machine.execCat01 s
  | .cat0C => Sys2Proof.Machine.execCat0C s
  | .cat0D => Sys2Proof.Machine.execCat0D s
  | .cat7F => Sys2Proof.Machine.execCat7F s
  | .catOther id => Sys2Proof.Machine.execCatOther id s
  | .csum bytes => Sys2Proof.Machine.execCsum bytes s
  | .csumStep v => Sys2Proof.Machine.execCsumStep v s
  | .csumCheck bytes => Sys2Proof.Machine.execCsumCheck bytes s
  | .frameDecode bytes => Sys2Proof.Machine.execFrameDecode bytes s
  | .recParse payload => Sys2Proof.Machine.execRecParse payload s
  | .frameEncode f => Sys2Proof.Machine.execFrameEncode f s
  | .offsets layout => Sys2Proof.Machine.execOffsets layout s
  | .fieldDecode rt r => Sys2Proof.Machine.execFieldDecode rt r s
  | .value kind raw => Sys2Proof.Machine.execValue kind raw s
  | .fieldEncode t => Sys2Proof.Machine.execFieldEncode t s
  | .dispatch f => Sys2Proof.Machine.execDispatch f s
  | .complete => Sys2Proof.Machine.execComplete s
  | .handler d => Sys2Proof.Machine.execHandler d s

end Sys2Proof.Machine
end

