-- ==== Sys2Proof/WellFormed.lean ====
section
/-! DEFINITION. Which terms of `Instr` are instructions of LSFS: the constraints the encodings and the operations'
rules put on operands. -/

namespace Sys2Proof

/-- A well-formed record: `length == 2 + len(data)`, and it fits the 254 record bytes of a payload (R48, R54). -/
def RawRecord.wellFormed (r : RawRecord) : Bool :=
  decide r.LengthCounts && decide (r.length.toNat ≤ Config.maxRecord)

/-- A RawFrame whose bytes are a well-formed frame that the synchronizer can find: the magic bytes, records that
tile the declared payload, and the running-sum checksum (R47 to R51, R59). -/
def RawFrame.wellFormed (f : RawFrame) : Bool :=
  decide (f.header.sync0 = Config.sync0) && decide (f.header.sync1 = Config.sync1)
    && f.records.all RawRecord.wellFormed
    && decide (f.declaredLength.toNat = payloadLength f.records)
    && decide ((f.checksum.msb, f.checksum.lsb) = csum f.coveredBytes)

/-- A bit pattern of a primitive subfield: one of the ten kinds and sizes, and no more than `size` bytes (R108). -/
def SubValue.wellFormed (v : SubValue) : Bool :=
  (primOf v.kind v.size).isSome && decide (v.bits < 256 ^ v.size)

/-- A TypedRecord that a record can hold: at most 252 data bytes (R54, R113). -/
def TypedRecord.wellFormed (t : TypedRecord) : Bool :=
  t.values.all SubValue.wellFormed && decide ((t.values.map fun v => v.size).sum ≤ Config.maxRecordData)

/-- The check itself, one line per constructor. -/
def Instr.wellFormed : Instr → Bool
  | .sync0Hit => true
  | .sync0Miss v => decide (v ≠ Config.sync0)
  | .sync1Hit => true
  | .sync1Miss v => decide (v ≠ Config.sync1)
  | .desc _ => true
  | .len _ => true
  | .body _ => true
  | .bodyLast _ => true
  | .read bs => decide (bs ≠ [])
  | .timeout => true
  | .ioError => true
  | .frame f => f.wellFormed
  | .record r => r.wellFormed
  | .ck _ _ => true
  | .cat80 => true
  | .cat81 => true
  | .cat82 => true
  | .cat01 => true
  | .cat0C => true
  | .cat0D => true
  | .cat7F => true
  | .catOther id => decide (id ∉ Config.knownCategories)
  | .csum _ => true
  | .csumStep _ => true
  | .csumCheck _ => true
  | .frameDecode _ => true
  | .recParse payload => decide (payload ≠ [])
  | .frameEncode _ => true
  | .offsets _ => true
  | .fieldDecode _ _ => true
  | .value kind raw => (primOf kind raw.length).isSome
  | .fieldEncode t => t.wellFormed
  | .dispatch _ => true
  | .complete => true
  | .handler _ => true

end Sys2Proof
end

