-- ==== Sys2Proof/Decode.lean ====
section
/-! DEFINITION. The decoder, total on any bytes and rejecting by name, and the encoder.

LSFS decodes no instruction words.  What an input byte means depends on where it is read (spec/30_encoding.md
R56, R58, R52), so the decoder takes the place beside the bytes. -/

namespace Sys2Proof

/-- Where bytes are read. -/
inductive Place where
  /-- A consume step in sync state `st` with `rem` bytes remaining (R56). -/
  | stream (st : SyncState) (rem : Nat)
  /-- The category id of a frame (R58). -/
  | category
  /-- A whole frame (R52). -/
  | frame
  /-- A record inside a payload (R48). -/
  | record
  /-- The checksum pair (R50). -/
  | checksum
deriving DecidableEq, Repr

/-- Why bytes are no instruction. -/
inductive Reject where
  /-- No byte to read. -/
  | noByte
  /-- `AwaitBody` with `rem = 0`: no row of R56 (spec/10_state.md R15: never at a step boundary). -/
  | noRow
  /-- Fewer bytes than the format's own length field declares, or than its fixed part (R51, R48, R50). -/
  | truncated
  /-- A frame that does not begin with the magic bytes (R47, R52). -/
  | noMagic
  /-- A frame that FRAME.DECODE refuses (spec/42_frame_codec.md R89). -/
  | badFrame (e : FrameError)
  /-- A frame with `L = 0` (R54, R57 (d)). -/
  | zeroLength
  /-- A record length byte of 0, 1 or 255 (R54, R57 (e)). -/
  | badRecordLength
deriving DecidableEq, Repr

/-- The byte-class map (R56). -/
def decodeStream (st : SyncState) (rem : Nat) (v : Byte) : Res Reject Instr :=
  match st with
  | .awaitSync0 => if v = Config.sync0 then .ok .sync0Hit else .ok (.sync0Miss v)
  | .awaitSync1 => if v = Config.sync1 then .ok .sync1Hit else .ok (.sync1Miss v)
  | .awaitDescriptor => .ok (.desc v)
  | .awaitLength => .ok (.len v)
  | .awaitBody => if rem = 0 then .err .noRow else if rem = 1 then .ok (.bodyLast v) else .ok (.body v)

/-- The category-id map (R58). -/
def decodeCategory (v : Byte) : Instr :=
  if v = Config.catImu then .cat80
  else if v = Config.catGnss then .cat81
  else if v = Config.catFilter then .cat82
  else if v = Config.cat01 then .cat01
  else if v = Config.cat0C then .cat0C
  else if v = Config.cat0D then .cat0D
  else if v = Config.cat7F then .cat7F
  else .catOther v

/-- The number of bytes of a frame whose offset-3 byte is `L` (R51): `3 + L + 2`. -/
def frameLength (L : Byte) : Nat := Config.hdrLen + L.toNat + Config.ckLen

/-- A frame at the front of `w` (R52, R55). -/
def decodeFrame (w : List Byte) : Res Reject Instr :=
  if w.length ≤ Config.hdrLen then .err .truncated
  else if byteAt w 0 = Config.sync0 ∧ byteAt w 1 = Config.sync1 then
    if byteAt w Config.hdrLen = 0 then .err .zeroLength
    else if w.length < frameLength (byteAt w Config.hdrLen) then .err .truncated
    else
      match frameDecode (w.take (frameLength (byteAt w Config.hdrLen))) with
      | .err e => .err (.badFrame e)
      | .ok f => .ok (.frame f)
  else .err .noMagic

/-- A record at the front of `w` (R48, R54). -/
def decodeRecord (w : List Byte) : Res Reject Instr :=
  match w with
  | n :: t :: rest =>
    if n.toNat < Config.recHdrLen ∨ Config.maxRecord < n.toNat then .err .badRecordLength
    else if rest.length < n.toNat - Config.recHdrLen then .err .truncated
    else .ok (.record { length := n, descriptor := t, data := rest.take (n.toNat - Config.recHdrLen) })
  | _ => .err .truncated

/-- A checksum pair at the front of `w` (R50). -/
def decodeChecksum (w : List Byte) : Res Reject Instr :=
  match w with
  | a :: b :: _ => .ok (.ck a b)
  | _ => .err .truncated

/-- The decoder: the instruction at the front of `w`, read at place `p`. -/
def decode (p : Place) (w : List Byte) : Res Reject Instr :=
  match p with
  | .stream st rem =>
    match w with
    | [] => .err .noByte
    | v :: _ => decodeStream st rem v
  | .category =>
    match w with
    | [] => .err .noByte
    | v :: _ => .ok (decodeCategory v)
  | .frame => decodeFrame w
  | .record => decodeRecord w
  | .checksum => decodeChecksum w

/-- What an answer of the byte source is (spec/10_state.md R22): an answer with no byte is a `Timeout` (D20). -/
def decodeAnswer : SourceAnswer → Instr
  | .bytes [] => .timeout
  | .bytes (v :: vs) => .read (v :: vs)
  | .timeout => .timeout
  | .ioError => .ioError

/-- The encoder: where an instruction is read and the bytes it has there.  The answers of the byte source and the
operations have no bits (spec/opcode_table.json, mask "n/a").  BODY is given one of its places, `rem = 2`. -/
def encode : Instr → Option (Place × List Byte)
  | .sync0Hit => some (.stream .awaitSync0 0, [Config.sync0])
  | .sync0Miss v => some (.stream .awaitSync0 0, [v])
  | .sync1Hit => some (.stream .awaitSync1 0, [Config.sync1])
  | .sync1Miss v => some (.stream .awaitSync1 0, [v])
  | .desc v => some (.stream .awaitDescriptor 0, [v])
  | .len v => some (.stream .awaitLength 0, [v])
  | .body v => some (.stream .awaitBody 2, [v])
  | .bodyLast v => some (.stream .awaitBody 1, [v])
  | .frame f => some (.frame, frameEncode f)
  | .record r => some (.record, r.bytes)
  | .ck a b => some (.checksum, [a, b])
  | .cat80 => some (.category, [Config.catImu])
  | .cat81 => some (.category, [Config.catGnss])
  | .cat82 => some (.category, [Config.catFilter])
  | .cat01 => some (.category, [Config.cat01])
  | .cat0C => some (.category, [Config.cat0C])
  | .cat0D => some (.category, [Config.cat0D])
  | .cat7F => some (.category, [Config.cat7F])
  | .catOther v => some (.category, [v])
  | .read _ => none
  | .timeout => none
  | .ioError => none
  | .csum _ => none
  | .csumStep _ => none
  | .csumCheck _ => none
  | .frameDecode _ => none
  | .recParse _ => none
  | .frameEncode _ => none
  | .offsets _ => none
  | .fieldDecode _ _ => none
  | .value _ _ => none
  | .fieldEncode _ => none
  | .dispatch _ => none
  | .complete => none
  | .handler _ => none

/-- The bytes of a table word: `n` bytes, the first in the lowest bits. -/
def wordBytes : Nat → Nat → List Byte
  | 0, _ => []
  | n + 1, w => BitVec.ofNat 8 w :: wordBytes n (w / 256)

/-- Where a table word is read (assumption log 18).  A one-byte word that a row of the table fixes is read where
that row is: `0x75` in `AwaitSync0`, `0x65` in `AwaitSync1`, a known category id as a category id; any other byte
in `AwaitSync0`, the state after reset.  Two bytes are a checksum pair, more a frame if they begin with the magic
bytes, else a record. -/
def tablePlace : List Byte → Place
  | [v] =>
    if v = Config.sync0 then .stream .awaitSync0 0
    else if v = Config.sync1 then .stream .awaitSync1 0
    else if v ∈ Config.knownCategories then .category
    else .stream .awaitSync0 0
  | [_, _] => .checksum
  | w => if byteAt w 0 = Config.sync0 ∧ byteAt w 1 = Config.sync1 then .frame else .record

/-- A table word with the bytes that its own length field says follow it, which are 0. -/
def tableBytes (w : List Byte) : List Byte :=
  match tablePlace w with
  | .frame => w ++ List.replicate (frameLength (byteAt w Config.hdrLen) - w.length) 0
  | .record => w ++ List.replicate ((byteAt w 0).toNat - w.length) 0
  | _ => w

/-- The instruction the decoder reads from a table word of `nbits` bits. -/
def decodeTableWord (nbits w : Nat) : Option Instr :=
  let word := wordBytes (nbits / 8) w
  match decode (tablePlace word) (tableBytes word) with
  | .ok i => some i
  | .err _ => none

end Sys2Proof
end

