-- ==== Sys2Proof/Machine/Fetch.lean ====
section
/-! DEFINITION. What runs next (spec/40_synchronizer.md R63, R75, R78): the oldest byte of `rxq` as the byte class
`st` and `rem` select; with `rxq` empty, the oldest direct call; with none, a read of the byte source. -/

namespace Sys2Proof.Machine

/-- What the fetch gives the step. -/
inductive Fetched where
  /-- Run `i` in `s`. -/
  | run (i : Instr) (s : State)
  /-- No row of the byte-class map applies. -/
  | stop (f : Fault)

/-- `RxPop` and the byte-class map (R32, R56, R63). -/
def fetchByte (v : Byte) (rest : List Byte) (s : State) : Fetched :=
  match decode (.stream s.st s.rem) (v :: rest) with
  | .ok i => .run i { s with rxq := rest }
  | .err _ => .stop .remainingZero

/-- The oldest direct call (assumption log 5), whatever its operands: every operation is total
(spec/60_exceptions.md R131; assumption log 23). -/
def fetchCall (i : Instr) (rest : List Instr) (s : State) : Fetched := .run i { s with calls := rest }

/-- A read of the byte source (R75). -/
def fetchAnswer (s : State) : Fetched :=
  let (answer, rest) := nextAnswer s.cfg.rxChunk s.source
  .run (decodeAnswer answer) { s with source := rest }

/-- The choice (R78; assumption log 5 for the calls). -/
def fetch (s : State) : Fetched :=
  match s.rxq with
  | v :: rest => fetchByte v rest s
  | [] =>
    match s.calls with
    | i :: rest => fetchCall i rest s
    | [] => fetchAnswer s

/-- `s` with the instruction bytes `w` where the next fetch finds them (assumption logs 18 and 19): a stream byte
in `rxq`, in the sync state its row belongs to; anything else as a direct call, which an empty `rxq` lets run. -/
def placeWord (w : List Byte) (s : State) : State :=
  match tablePlace w with
  | .stream .awaitSync1 _ =>
    { s with resetReq := false, st := .awaitSync1, buf := [Config.sync0], rxq := w ++ s.rxq.tail }
  | .stream _ _ =>
    { s with resetReq := false, st := .awaitSync0, buf := [], rxq := w ++ s.rxq.tail }
  | p =>
    match decode p (tableBytes w) with
    | .ok i => { s with resetReq := false, rxq := [], calls := i :: s.calls }
    | .err _ => s

end Sys2Proof.Machine
end

