-- ==== Sys2Proof/Machine/Step.lean ====
section
/-! DEFINITION. One step (spec/40_synchronizer.md R63, R75, R78; spec/70_reset_and_hazards.md R142, R153). -/

namespace Sys2Proof.Machine

/-- One step: reset where it is asserted, else what the fetch gives, with the status outputs of a step that completes
no frame unless the instruction sets them (spec/10_state.md R27). -/
def step (s : State) : Host.Outcome State Fault Refusal :=
  if s.resetReq then .next s.blockReset
  else
    match fetch s.clearStatus with
    | .run i t => exec i t
    | .stop f => .fault f

/-- `s` with the table word `w` of `nbits` bits placed where `step` fetches its next instruction. -/
def State.withFetchWord (s : State) (nbits w : Nat) : State := placeWord (wordBytes (nbits / 8) w) s

end Sys2Proof.Machine
end

