-- ==== Sys2Proof/Machine/Instances.lean ====
section
/-! DEFINITION. Several instances of the block (spec/20_memory.md R45, spec/60_exceptions.md R139), as the machine of
`step` taken many times; assumption log 31. -/

namespace Sys2Proof.Machine

/-- The instances, each with a state of its own and nothing beside it: registers, queues, traces, byte source and
handler.  An instance is where its own run has come to: a state, or the stop that ended it (R149).  The spec gives
instances no identifiers (R139); a place in the list is the model's name for one. -/
abbrev Instances := List Result

/-- `n` instances, each at its reset state (R139). -/
def Instances.reset (n : Nat) : Instances := List.replicate n (.next State.reset)

/-- Instance `k` takes one step; a stopped instance, or one that does not exist, takes none. -/
def Instances.stepAt (k : Nat) (m : Instances) : Instances := m.modify k fun o => andThen o step

/-- The instances take steps in the order of `schedule`, one interleaving of their threads (R45). -/
def Instances.interleave : List Nat → Instances → Instances
  | [], m => m
  | k :: schedule, m => Instances.interleave schedule (Instances.stepAt k m)

/-- The one thing instances share is the read-only catalog (R139): each running instance holds the same one. -/
def Instances.ShareCatalog (c : Catalog) (m : Instances) : Prop := ∀ s : State, .next s ∈ m → s.cfg.catalog = c

end Sys2Proof.Machine
end

