-- ==== Sys2Proof/Safety.lean ====
section
/-! DEFINITION. What a safe run of LSFS is: the invariants of spec/10_state.md R25 and the words in which claims about
streams are stated. -/

namespace Sys2Proof

/-- The constraints of spec/43_field_codec_dispatch.md R107 on the OPEN part of the catalog: each slot belongs to its
category and the type ids of a category are distinct.  (The skeleton's own constraints hold by construction.) -/
structure Catalog.WellFormed (c : Catalog) : Prop where
  owned : ∀ k ∈ c.categories, ∀ rt ∈ k.slots, rt.categoryId = k.id
  distinct : ∀ k ∈ c.categories, (k.slots.map RecordType.typeId).Nodup

/-- A well-formed frame (spec/30_encoding.md R59) as a byte sequence: two first bytes, category, declared length,
records that tile the declared payload, and the checksum.  The first two bytes need not be the magic bytes. -/
def WellFormedFrame (w : List Byte) : Prop :=
  ∃ (s0 s1 c L a b : Byte) (rs : List RawRecord),
    w = [s0, s1, c, L] ++ recordsBytes rs ++ [a, b]
      ∧ (∀ r ∈ rs, r.LengthCounts)
      ∧ L.toNat = payloadLength rs
      ∧ (a, b) = csum ([s0, s1, c, L] ++ recordsBytes rs)

/-- The bytes a list of answers delivers: the input stream (spec/10_state.md R22). -/
def streamOf : List SourceAnswer → List Byte
  | [] => []
  | .bytes bs :: rest => bs ++ streamOf rest
  | .timeout :: rest => streamOf rest
  | .ioError :: rest => streamOf rest

/-- The rows that a direct call can run in any state: every row but the eight byte classes and READ, which the stream
and the byte source select (spec/30_encoding.md R56, spec/40_synchronizer.md R75). -/
def Instr.callable : Instr → Bool
  | .sync0Hit | .sync0Miss _ | .sync1Hit | .sync1Miss _ | .desc _ | .len _ | .body _ | .bodyLast _ => false
  | .read _ => false
  | .timeout | .ioError => true
  | .frame _ | .record _ | .ck _ _ => true
  | .cat80 | .cat81 | .cat82 | .cat01 | .cat0C | .cat0D | .cat7F | .catOther _ => true
  | .csum _ | .csumStep _ | .csumCheck _ => true
  | .frameDecode _ | .recParse _ | .frameEncode _ => true
  | .offsets _ | .fieldDecode _ _ | .value _ _ | .fieldEncode _ | .dispatch _ => true
  | .complete | .handler _ => true

namespace Machine

/-- The shape of the frame buffer in each sync state (R25), with the recorded category id (R17). -/
def State.BufShape (s : State) : Prop :=
  match s.st with
  | .awaitSync0 => s.buf = []
  | .awaitSync1 => s.buf = [Config.sync0]
  | .awaitDescriptor => s.buf = [Config.sync0, Config.sync1]
  | .awaitLength => s.buf = [Config.sync0, Config.sync1, s.cat]
  | .awaitBody =>
    ∃ (L : Byte) (rest : List Byte),
      s.buf = Config.sync0 :: Config.sync1 :: s.cat :: L :: rest ∧ 1 ≤ s.rem ∧ rest.length + s.rem = remOf L

/-- The invariant of the machine at step boundaries. -/
structure State.Inv (s : State) : Prop where
  /-- R25. -/
  shape : s.BufShape
  /-- Only codes 0, 1 and 2 stand on `err_code` (spec/60_exceptions.md R126), and 0 with `frame_ok` (R27). -/
  status : s.errCode ≤ 2 ∧ (s.frameOk = true → s.errCode = 0)
  /-- The input queue holds at most `RX_CHUNK` bytes (R20). -/
  queue : s.rxq.length ≤ s.cfg.rxChunk
  /-- `RX_CHUNK` is at least 1 (spec/00_scope.md R8). -/
  chunk : 1 ≤ s.cfg.rxChunk
  /-- R107. -/
  catalog : s.cfg.catalog.WellFormed

/-- The next handler invocation returns (spec/60_exceptions.md R136). -/
abbrev State.HandlerReturns (s : State) : Prop := s.handlerAnswers.head? ≠ some .never

/-- Nothing waits but the stream: no reset is asserted and no direct call is queued. -/
abbrev State.Streaming (s : State) : Prop := s.resetReq = false ∧ s.calls = []

/-- `k` steps of the machine, stopping at the first fault or refusal. -/
def run (k : Nat) (s : State) : Result := Host.Core.run core k s

/-- A safe run: it never stops. -/
def Safe (s : State) : Prop := ∀ k : Nat, ∃ t : State, run k s = .next t

end Machine
end Sys2Proof
end

