-- ==== Sys2Proof/Certificates/Slice0/Obligations.lean ====
section
/-! DEFINITION. The statements for the provers.  Each docstring says which rule of spec/ it formalises.

A result statement is an equation between what `exec` answers and a whole next state: every field that the record
update does not name is unchanged, which is the instruction's frame. -/

open Sys2Proof Sys2Proof.Machine

/-! ### The synchronizer's rows -/

/-- R64, R65: hunting for the first magic byte, and a run of other bytes leaves the state as it is. -/
def Obligations.HuntingForTheFirstMagicByte : Prop :=
  ∀ s : State, s.st = .awaitSync0 →
    exec .sync0Hit s = .next { s with buf := s.buf ++ [0x75], st := .awaitSync1 }
    ∧ (∀ v : Byte, v ≠ 0x75 → exec (.sync0Miss v) s = .next { s with buf := [] })
    ∧ (s.buf = [] → s.frameOk = false → s.errCode = 0 →
        ∀ w : List Byte, (∀ v ∈ w, v ≠ 0x75) → consumeBytes w s = .next s)

/-- R66, R67: the second magic byte; any other byte, `0x75` included, drops both. -/
def Obligations.HuntingForTheSecondMagicByte : Prop :=
  ∀ s : State, s.st = .awaitSync1 →
    exec .sync1Hit s = .next { s with buf := s.buf ++ [0x65], st := .awaitDescriptor }
    ∧ (∀ v : Byte, v ≠ 0x65 → exec (.sync1Miss v) s = .next { s with buf := [], st := .awaitSync0 })

/-- R68, R69: any byte is recorded as the category id; the length byte gives `rem = L + 1`, without wrap. -/
def Obligations.DescriptorAndLengthBytesAreRecorded : Prop :=
  ∀ (s : State) (v : Byte),
    (s.st = .awaitDescriptor →
      exec (.desc v) s = .next { s with buf := s.buf ++ [v], cat := v, st := .awaitLength })
    ∧ (s.st = .awaitLength →
      exec (.len v) s = .next { s with buf := s.buf ++ [v], rem := v.toNat + 1, st := .awaitBody })

/-- R70: body bytes are counted down, and exactly `L + 1` bytes follow the length byte: after `L` of them one is
missing, and the next one runs COMPLETE on the whole buffer, which has `L + 5` bytes, in its own step. -/
def Obligations.BodyBytesAreCountedDown : Prop :=
  (∀ (s : State) (v : Byte), s.st = .awaitBody → 2 ≤ s.rem →
    exec (.body v) s = .next { s with buf := s.buf ++ [v], rem := s.rem - 1 })
  ∧ (∀ (s : State) (v : Byte), s.st = .awaitBody → s.rem = 1 →
    exec (.bodyLast v) s = exec .complete { s with buf := s.buf ++ [v], rem := 0 })
  ∧ (∀ (s : State) (L : Byte) (w : List Byte) (x : Byte), s.st = .awaitLength → w.length = L.toNat →
    consumeBytes (L :: w) s
        = .next { s with buf := s.buf ++ (L :: w), rem := 1, st := .awaitBody, frameOk := false, errCode := 0 }
    ∧ consumeBytes (L :: w ++ [x]) s
        = exec .complete
            { s with buf := s.buf ++ (L :: w ++ [x]), rem := 0, st := .awaitBody, frameOk := false, errCode := 0 }
    ∧ (s.buf.length = 3 → (s.buf ++ (L :: w ++ [x])).length = L.toNat + 5))

/-- The completion of BODY.LAST (R70, R71): accepted, the frame is delivered; refused, its error is logged; the block
is in `AwaitSync0` with an empty buffer either way. -/
def Obligations.LastBodyByteEndsTheFrame : Prop :=
  ∀ (s : State) (v : Byte), s.st = .awaitBody → s.rem = 1 →
    (∀ f : RawFrame, frameDecode (s.buf ++ [v]) = .ok f → s.HandlerReturns →
      exec (.bodyLast v) s = .next
        { s with
          rem := 0, out := s.out ++ [{ frame := f, dispatch := dispatch s.cfg.catalog f }],
          handlerAnswers := s.handlerAnswers.tail, buf := [], st := .awaitSync0,
          a := 0, b := 0, off := 0, recs := [], frameOk := true, errCode := 0 })
    ∧ (∀ e : FrameError, frameDecode (s.buf ++ [v]) = .err e →
      exec (.bodyLast v) s = .next
        { s with
          rem := 0, log := s.log ++ [.frameError e], buf := [], st := .awaitSync0,
          a := 0, b := 0, off := 0, recs := [], frameOk := false, errCode := e.kind.code })

/-- In a reachable shape of the buffer (R25) the candidate that BODY.LAST completes has `L + 5` bytes (R51, R70) and
at most 260 (R35). -/
def Obligations.CandidateHasDeclaredLengthPlusFive : Prop :=
  ∀ (s : State) (v : Byte), s.Inv → s.st = .awaitBody → s.rem = 1 →
    (s.buf ++ [v]).length = (byteAt s.buf 3).toNat + 5 ∧ (s.buf ++ [v]).length ≤ 260

/-- R128: the frame-level error entry: logged, discarded, scanning resumed; the handler's trace, the input queue,
`rem` and `cat` are not written. -/
def Obligations.FrameErrorDiscardsTheCandidate : Prop :=
  ∀ (s : State) (e : FrameError), frameDecode s.buf = .err e →
    exec .complete s = .next
      { s with
        log := s.log ++ [.frameError e], buf := [], st := .awaitSync0,
        a := 0, b := 0, off := 0, recs := [], frameOk := false,
        errCode := match e with | .insufficientBytes _ _ => 1 | .badChecksum => 2 }

/-- R72: the handler invocation is recorded in the handler trace and changes nothing else of the block; what COMPLETE
hands over is the frame with its dispatch result, whatever the category; a handler that never returns stops the
block. -/
def Obligations.HandlerIsGivenTheFrameAndItsDispatch : Prop :=
  ∀ s : State,
    (∀ d : Delivery, s.HandlerReturns →
      exec (.handler d) s = .next { s with out := s.out ++ [d], handlerAnswers := s.handlerAnswers.tail })
    ∧ (∀ f : RawFrame, frameDecode s.buf = .ok f → s.HandlerReturns →
      exec .complete s = .next
        { s with
          out := s.out ++ [{ frame := f, dispatch := dispatch s.cfg.catalog f }],
          handlerAnswers := s.handlerAnswers.tail, buf := [], st := .awaitSync0,
          a := 0, b := 0, off := 0, recs := [], frameOk := true, errCode := 0 })
    ∧ (∀ d : Delivery, s.handlerAnswers.head? = some .never →
      exec (.handler d) s = .fault .handlerNeverReturns)

/-- R149: a handler that never returns stops the block for good. -/
def Obligations.HandlerThatNeverReturnsStopsTheBlock : Prop :=
  ∀ (s : State), s.handlerAnswers.head? = some .never →
    (∀ d : Delivery, exec (.handler d) s = .fault .handlerNeverReturns)
    ∧ (∀ f : RawFrame, frameDecode s.buf = .ok f → exec .complete s = .fault .handlerNeverReturns)
    ∧ (∀ (v : Byte) (f : RawFrame), s.st = .awaitBody → s.rem = 1 → frameDecode (s.buf ++ [v]) = .ok f →
        exec (.bodyLast v) s = .fault .handlerNeverReturns)

/-! ### The byte source -/

/-- R75, R76, R77: the three answers. -/
def Obligations.SourceAnswersTakeEffect : Prop :=
  ∀ s : State,
    (∀ bs : List Byte, bs ≠ [] → s.rxq = [] → bs.length ≤ s.cfg.rxChunk →
      exec (.read bs) s = .next { s with rxq := bs })
    ∧ exec .timeout s = .next s
    ∧ exec .ioError s = .next { s with log := s.log ++ [.ioError] }

/-- The model's own stops (assumption log 15): a byte-class row executed where R56 selects another row, and a READ that
R32 and R22 say is never issued.  No step of the machine from a state of the invariant runs one
(`StepStopsOnlyForTheHandler`). -/
def Obligations.RowsOutsideTheirPlaceStop : Prop :=
  ∀ (s : State) (v : Byte),
    (s.st ≠ .awaitSync0 → exec .sync0Hit s = .fault .rowNotSelected
      ∧ exec (.sync0Miss v) s = .fault .rowNotSelected)
    ∧ exec (.sync0Miss 0x75) s = .fault .rowNotSelected
    ∧ (s.st ≠ .awaitSync1 → exec .sync1Hit s = .fault .rowNotSelected
      ∧ exec (.sync1Miss v) s = .fault .rowNotSelected)
    ∧ exec (.sync1Miss 0x65) s = .fault .rowNotSelected
    ∧ (s.st ≠ .awaitDescriptor → exec (.desc v) s = .fault .rowNotSelected)
    ∧ (s.st ≠ .awaitLength → exec (.len v) s = .fault .rowNotSelected)
    ∧ (s.st ≠ .awaitBody ∨ s.rem < 2 → exec (.body v) s = .fault .rowNotSelected)
    ∧ (s.st ≠ .awaitBody ∨ s.rem ≠ 1 → exec (.bodyLast v) s = .fault .rowNotSelected)
    ∧ (∀ bs : List Byte, bs ≠ [] → s.rxq ≠ [] → exec (.read bs) s = .fault .readOutOfTurn)
    ∧ (∀ bs : List Byte, bs ≠ [] → s.rxq = [] → s.cfg.rxChunk < bs.length →
        exec (.read bs) s = .fault .readTooLong)

/-- The suspension step (R75): with nothing queued the step is a read, and each answer has its effect; what a read
leaves of a longer answer stays for the next read (assumption log 9), and a source with no answer left times out
(assumption log 3). -/
def Obligations.EmptyQueueMeansARead : Prop :=
  ∀ s : State, s.Streaming → s.rxq = [] → 1 ≤ s.cfg.rxChunk →
    (s.source = [] → step s = .next { s with frameOk := false, errCode := 0 })
    ∧ (∀ r, s.source = .timeout :: r → step s = .next { s with source := r, frameOk := false, errCode := 0 })
    ∧ (∀ r, s.source = .ioError :: r →
        step s = .next { s with source := r, log := s.log ++ [.ioError], frameOk := false, errCode := 0 })
    ∧ (∀ bs r, bs ≠ [] → bs.length ≤ s.cfg.rxChunk → s.source = .bytes bs :: r →
        step s = .next { s with source := r, rxq := bs, frameOk := false, errCode := 0 })
    ∧ (∀ bs r, s.cfg.rxChunk < bs.length → s.source = .bytes bs :: r →
        step s = .next
          { s with
            source := .bytes (bs.drop s.cfg.rxChunk) :: r, rxq := bs.take s.cfg.rxChunk,
            frameOk := false, errCode := 0 })

/-- R150: with only timeouts to come a partly collected frame is held, unchanged, for any number of steps. -/
def Obligations.TimeoutsHoldAnIncompleteFrame : Prop :=
  ∀ (s : State) (k n : Nat), s.Streaming → s.rxq = [] → s.frameOk = false → s.errCode = 0 →
    run k { s with source := List.replicate (k + n) .timeout }
      = .next { s with source := List.replicate n .timeout }

/-! ### The wire formats -/

/-- R79: garbage without `0x75`, then a well-formed frame that starts `75 65`: exactly those bytes are consumed, the
handler is invoked once, with the decode of the frame, and the block is hunting again with an empty buffer. -/
def Obligations.ResynchronizationDeliversTheFrame : Prop :=
  ∀ (s : State) (g w : List Byte), s.st = .awaitSync0 → s.buf = [] → s.HandlerReturns →
    (∀ v ∈ g, v ≠ 0x75) → WellFormedFrame w → byteAt w 0 = 0x75 → byteAt w 1 = 0x65 →
    ∃ f : RawFrame, frameDecode w = .ok f ∧
      consumeBytes (g ++ w) s = .next
        { s with
          cat := byteAt w 2, rem := 0,
          out := s.out ++ [{ frame := f, dispatch := dispatch s.cfg.catalog f }],
          handlerAnswers := s.handlerAnswers.tail,
          a := 0, b := 0, off := 0, recs := [], frameOk := true, errCode := 0 }

/-- The completion of FRAME (R52, R79): a well-formed frame that arrives while hunting is delivered. -/
def Obligations.FrameRowIsReceivedAndDelivered : Prop :=
  ∀ (s : State) (f : RawFrame), s.st = .awaitSync0 → s.buf = [] → s.HandlerReturns → f.wellFormed = true →
    exec (.frame f) s = .next
      { s with
        cat := f.header.setDescriptor, rem := 0,
        out := s.out ++ [{ frame := f, dispatch := dispatch s.cfg.catalog f }],
        handlerAnswers := s.handlerAnswers.tail,
        a := 0, b := 0, off := 0, recs := [], frameOk := true, errCode := 0 }

/-- R80: back-to-back well-formed frames are delivered one each, in order, and nothing is logged; and no byte of them
is dropped: after any bytes `u` of any frame but all of them, `u` stands in the buffer. -/
def Obligations.BackToBackFramesAreAllDelivered : Prop :=
  ∀ (s : State) (fs : List RawFrame), s.st = .awaitSync0 → s.buf = [] →
    (∀ h ∈ s.handlerAnswers, h = .returns) → (∀ f ∈ fs, f.wellFormed = true) →
    (∃ t : State, consumeBytes (fs.flatMap frameEncode) s = .next t
      ∧ t.out = s.out ++ fs.map (deliver s.cfg.catalog) ∧ t.log = s.log ∧ t.st = .awaitSync0 ∧ t.buf = [])
    ∧ (∀ (f : RawFrame) (u v : List Byte), f.wellFormed = true → frameEncode f = u ++ v → v ≠ [] →
      ∃ t : State, consumeBytes (fs.flatMap frameEncode ++ u) s = .next t ∧ t.buf = u)

/-- The completion of REC (R48, R70): the bytes of a record that arrives inside a body are collected. -/
def Obligations.RecordRowIsCollected : Prop :=
  ∀ (s : State) (r : RawRecord), s.st = .awaitBody → r.wellFormed = true → r.length.toNat < s.rem →
    exec (.record r) s = .next
      { s with
        buf := s.buf ++ (r.length :: r.descriptor :: r.data), rem := s.rem - r.length.toNat,
        frameOk := false, errCode := 0 }

/-- The completion of CK (R50, R70, R71): the checksum pair that arrives with two bytes to come ends the candidate. -/
def Obligations.ChecksumPairEndsTheCandidate : Prop :=
  ∀ (s : State) (x y : Byte), s.st = .awaitBody → s.rem = 2 →
    (∀ f : RawFrame, frameDecode (s.buf ++ [x, y]) = .ok f → s.HandlerReturns →
      exec (.ck x y) s = .next
        { s with
          rem := 0, out := s.out ++ [{ frame := f, dispatch := dispatch s.cfg.catalog f }],
          handlerAnswers := s.handlerAnswers.tail, buf := [], st := .awaitSync0,
          a := 0, b := 0, off := 0, recs := [], frameOk := true, errCode := 0 })
    ∧ (∀ e : FrameError, frameDecode (s.buf ++ [x, y]) = .err e →
      exec (.ck x y) s = .next
        { s with
          rem := 0, log := s.log ++ [.frameError e], buf := [], st := .awaitSync0,
          a := 0, b := 0, off := 0, recs := [], frameOk := false, errCode := e.kind.code })

/-- Any bytes in any state of the invariant are consumed without a stop, and the invariant is kept (R56: the map is
total; R131), where every handler invocation returns.  So the formats complete in every sync state. -/
def Obligations.AnyBytesAreConsumed : Prop :=
  ∀ (s : State) (w : List Byte), s.Inv → (∀ h ∈ s.handlerAnswers, h = .returns) →
    (∃ t : State, consumeBytes w s = .next t ∧ t.Inv)
    ∧ (∀ f : RawFrame, ∃ t : State, exec (.frame f) s = .next t ∧ t.Inv)
    ∧ (∀ r : RawRecord, ∃ t : State, exec (.record r) s = .next t ∧ t.Inv)
    ∧ (∀ x y : Byte, ∃ t : State, exec (.ck x y) s = .next t ∧ t.Inv)

/-- R146: a `0x75` right before a frame loses it: the frame's own `0x75` fails as a second sync byte and the rest is
skipped.  (The frame has no further `0x75`, which could start another candidate: R147.) -/
def Obligations.StrayMagicByteLosesTheFrame : Prop :=
  ∀ (s : State) (f : RawFrame), s.st = .awaitSync1 → f.wellFormed = true → 0x75 ∉ (frameEncode f).tail →
    exec (.frame f) s = .next { s with st := .awaitSync0, buf := [], frameOk := false, errCode := 0 }

/-! ### The category ids and DISPATCH -/

/-- R58, R117, on the record list the parser holds (assumption log 14): the three data categories give the aggregate of the catalog's slots for the records held; the four
non-data categories are recognized and empty. -/
def Obligations.KnownCategoriesAreRecognized : Prop :=
  ∀ s : State,
    exec .cat80 s = .next { s with ret := some (.dispatch
      (.aggregate 0x80 (s.cfg.catalog.imu.map (fillSlot (indexRecords s.recs))))) }
    ∧ exec .cat81 s = .next { s with ret := some (.dispatch
      (.aggregate 0x81 (s.cfg.catalog.gnss.map (fillSlot (indexRecords s.recs))))) }
    ∧ exec .cat82 s = .next { s with ret := some (.dispatch
      (.aggregate 0x82 (s.cfg.catalog.filter.map (fillSlot (indexRecords s.recs))))) }
    ∧ exec .cat01 s = .next { s with ret := some (.dispatch (.aggregate 0x01 [])) }
    ∧ exec .cat0C s = .next { s with ret := some (.dispatch (.aggregate 0x0C [])) }
    ∧ exec .cat0D s = .next { s with ret := some (.dispatch (.aggregate 0x0D [])) }
    ∧ exec .cat7F s = .next { s with ret := some (.dispatch (.aggregate 0x7F [])) }

/-- R116: any other id is unrecognized and carries no slots; DISPATCH of such a frame is not an error.  (CAT.OTHER run
alone answers for the id of its own byte: assumption log 14.) -/
def Obligations.OtherCategoriesAreUnrecognized : Prop :=
  ∀ (s : State) (id : Byte), id ∉ ([0x80, 0x81, 0x82, 0x01, 0x0C, 0x0D, 0x7F] : List Byte) →
    exec (.catOther id) s = .next { s with ret := some (.dispatch (.unrecognized id)) }
    ∧ (∀ f : RawFrame, f.header.setDescriptor = id →
        exec (.dispatch f) s = .next { s with ret := some (.dispatch (.unrecognized id)) })

/-- R114, R115: DISPATCH of a known category has exactly one slot per record type of the category, in order; a slot
holds the decode of the LAST record of its type id, and is empty where there is none or where it does not decode. -/
def Obligations.EachSlotHoldsTheLastRecordOfItsType : Prop :=
  ∀ (s : State) (f : RawFrame) (k : Category), s.cfg.catalog.category f.header.setDescriptor = some k →
    exec (.dispatch f) s = .next
      { s with
        ret := some (.dispatch (.aggregate k.id (k.slots.map fun rt =>
          { typeId := rt.typeId
            value :=
              match (f.records.filter fun r => r.descriptor = rt.typeId).getLast? with
              | none => none
              | some r =>
                match fieldDecode rt r with
                | .ok t => some t
                | .err _ => none }))) }

/-- R118: records whose type id matches no slot of the category change nothing. -/
def Obligations.UnknownTypeIdsAreIgnored : Prop :=
  ∀ (c : Catalog) (f : RawFrame) (k : Category), c.category f.header.setDescriptor = some k →
    dispatch c { f with records := f.records.filter fun r => r.descriptor ∈ k.slots.map RecordType.typeId }
      = dispatch c f

/-! ### The checksum -/

/-- R81, R82: CSUM is CSUM.STEP over the bytes in order from `(0, 0)`, and CSUM.STEP adds modulo 256, the new `a`
into `b`.  (Run alone it takes the accumulators of the state: assumption log 28.) -/
def Obligations.ChecksumStepsAccumulate : Prop :=
  (∀ (s : State) (v : Byte), ∃ a' b' : Byte,
    exec (.csumStep v) s = .next { s with a := a', b := b', ret := some (.sums a' b') }
    ∧ a'.toNat = (s.a.toNat + v.toNat) % 256
    ∧ b'.toNat = (s.b.toNat + (s.a.toNat + v.toNat) % 256) % 256)
  ∧ csum [] = (0, 0)
  ∧ (∀ (w : List Byte) (v : Byte), csum (w ++ [v]) = csumStep (csum w) v)

/-- R85: the closed form of the two sums that CSUM leaves in the accumulators. -/
def Obligations.ChecksumClosedForm : Prop :=
  ∀ (s : State) (w : List Byte), ∃ a' b' : Byte,
    exec (.csum w) s = .next { s with a := a', b := b', ret := some (.sums a' b') }
    ∧ a'.toNat = (w.map BitVec.toNat).sum % 256
    ∧ b'.toNat = ((List.range w.length).map fun i => (w.length - i) * (byteAt w i).toNat).sum % 256

/-- R84: the check compares both trailing bytes with the sums of the bytes before them. -/
def Obligations.ChecksumCheckComparesBothBytes : Prop :=
  ∀ (s : State) (w : List Byte) (x y : Byte), ∃ a' b' : Byte,
    csum w = (a', b')
    ∧ exec (.csumCheck (w ++ [x, y])) s
        = .next { s with a := a', b := b', ret := some (.check (decide (x = a' ∧ y = b'))) }

/-- The model's reading (assumption log 16): CSUM.CHECK of fewer than two bytes, for which R84 states no result, fails
the check and leaves the sums of nothing. -/
def Obligations.TooShortToCheckFailsTheCheck : Prop :=
  ∀ (s : State) (w : List Byte), w.length < 2 →
    exec (.csumCheck w) s = .next { s with a := 0, b := 0, ret := some (.check false) }

/-- R103: one damaged byte of a frame that decodes, the last two included, gives `BadChecksum`. -/
def Obligations.DamagedByteGivesBadChecksum : Prop :=
  ∀ (w : List Byte) (f : RawFrame), frameDecode w = .ok f →
    ∀ (i : Nat) (v : Byte), i < w.length → v ≠ byteAt w i → frameDecode (w.set i v) = .err .badChecksum

/-- R86 (c), (d), (e): an exchange of two adjacent bytes that differ is detected; of two bytes further apart not
always; leading zeros not at all. -/
def Obligations.ChecksumDetectsAdjacentSwaps : Prop :=
  (∀ (p q : List Byte) (x y : Byte), x ≠ y → csum (p ++ [x, y] ++ q) ≠ csum (p ++ [y, x] ++ q))
  ∧ (∃ (x y z : Byte), x ≠ z ∧ csum [x, y, z] = csum [z, y, x])
  ∧ (∀ (n : Nat) (w : List Byte), csum (List.replicate n 0 ++ w) = csum w)

/-! ### The frame codec -/

/-- R90, R91: an input shorter than 6 bytes is `InsufficientBytes`, whatever its bytes; an input of at least 6 bytes
whose last two bytes are not the checksum of the rest is `BadChecksum`, whatever its structure (R127). -/
def Obligations.LengthThenChecksumAreChecked : Prop :=
  ∀ (s : State) (w : List Byte),
    (w.length < 6 →
      exec (.frameDecode w) s = .next { s with ret := some (.frame (.err (.insufficientBytes 6 w.length))) })
    ∧ (∀ x y : Byte, 4 ≤ w.length → (x, y) ≠ csum w →
      exec (.frameDecode (w ++ [x, y])) s
        = .next { s with a := (csum w).1, b := (csum w).2, ret := some (.frame (.err .badChecksum)) })

/-- The completion of FRAME.DECODE (R89): it answers on every input, returns the decode result and writes nothing but
the decode's scratch. -/
def Obligations.FrameDecodeAnswersOnEveryInput : Prop :=
  ∀ (s : State) (w : List Byte), ∃ (a' b' : Byte) (off' : Nat) (recs' : List RawRecord),
    exec (.frameDecode w) s
      = .next { s with a := a', b := b', off := off', recs := recs', ret := some (.frame (frameDecode w)) }

/-- R99: what holds after a successful decode. -/
def Obligations.SuccessfulDecodeIsSound : Prop :=
  ∀ (w : List Byte) (f : RawFrame), frameDecode w = .ok f →
    1 ≤ f.declaredLength.toNat
    ∧ (∀ r ∈ f.records, 2 ≤ r.length.toNat ∧ r.length.toNat = 2 + r.data.length)
    ∧ 1 + (f.records.map fun r => r.length.toNat).sum = f.declaredLength.toNat
    ∧ f.declaredLength.toNat + 5 ≤ w.length
    ∧ recordsBytes f.records = slice w 4 (f.declaredLength.toNat + 3)
    ∧ (f.checksum.msb, f.checksum.lsb) = csum (slice w 0 (w.length - 2))

/-- R101: decode succeeds on every well-formed frame and encode gives its bytes back; encode inverts every decode of
an input of exactly `L + 5` bytes; and so a frame that BODY.LAST delivers re-encodes to exactly the bytes that were on
the stream. -/
def Obligations.DecodeThenEncodeGivesTheBytesBack : Prop :=
  (∀ w : List Byte, WellFormedFrame w → ∃ f : RawFrame, frameDecode w = .ok f ∧ frameEncode f = w)
  ∧ (∀ (w : List Byte) (f : RawFrame), frameDecode w = .ok f → w.length = f.declaredLength.toNat + 5 →
      frameEncode f = w)
  ∧ (∀ (s : State) (v : Byte) (f : RawFrame), s.Inv → s.st = .awaitBody → s.rem = 1 →
      frameDecode (s.buf ++ [v]) = .ok f →
        frameEncode f = s.buf ++ [v]
          ∧ f.header.sync0 = 0x75 ∧ f.header.sync1 = 0x65 ∧ f.header.setDescriptor = s.cat)

/-- R104, R57 (d), for `L = 0`: the 5-byte candidate is `InsufficientBytes` with fields 6 and 5, logged. -/
def Obligations.ZeroLengthCandidateIsLogged : Prop :=
  ∀ (s : State) (v : Byte), s.Inv → s.st = .awaitBody → s.rem = 1 → byteAt s.buf 3 = 0 →
    exec (.bodyLast v) s = .next
      { s with
        rem := 0, log := s.log ++ [.frameError (.insufficientBytes 6 5)], buf := [], st := .awaitSync0,
        a := 0, b := 0, off := 0, recs := [], frameOk := false, errCode := 1 }

/-- R94, R98: records packed in the declared payload are parsed in order, and surplus bytes are ignored; the scratch
ends at `off = L`. -/
def Obligations.PackedRecordsAreParsedInOrder : Prop :=
  ∀ (s : State) (L : Byte) (rs : List RawRecord) (extra : List Byte),
    (∀ r ∈ rs, r.length.toNat = 2 + r.data.length) → L.toNat = payloadLength rs →
    exec (.recParse (L :: recordsBytes rs ++ extra)) s
      = .next { s with off := L.toNat, recs := rs, ret := some (.records (.ok rs)) }

/-- R95, R96, R97: the errors of the record parser.  After the records `rs` the next record starts at `off`, with
`avail` bytes of the declared payload present. -/
def Obligations.RecordParserErrors : Prop :=
  (∀ rest : List Byte, recParse (0 :: rest) = .err (.insufficientBytes 1 0))
  ∧ (∀ (L : Byte) (rs : List RawRecord) (rest : List Byte),
      (∀ r ∈ rs, r.length.toNat = 2 + r.data.length) → payloadLength rs < L.toNat →
      ∀ avail : Nat, avail = min (L.toNat - payloadLength rs) rest.length →
        (avail < 2 → recParse (L :: recordsBytes rs ++ rest) = .err (.insufficientBytes 2 avail))
        ∧ (2 ≤ avail → (byteAt rest 0).toNat < 2 →
            recParse (L :: recordsBytes rs ++ rest) = .err (.insufficientBytes 2 (byteAt rest 0).toNat))
        ∧ (2 ≤ avail → avail < (byteAt rest 0).toNat →
            recParse (L :: recordsBytes rs ++ rest) = .err (.insufficientBytes (byteAt rest 0).toNat avail)))

/-- The completion of REC.PARSE (R94, R99): it answers on every payload region, returns the parse result and writes
nothing but `off` and `recs`. -/
def Obligations.RecordParserAnswersOnEveryInput : Prop :=
  ∀ (s : State) (P : List Byte), ∃ (off' : Nat) (recs' : List RawRecord),
    exec (.recParse P) s = .next { s with off := off', recs := recs', ret := some (.records (recParse P)) }
    ∧ recs'.length ≤ 127

/-- R100: encode concatenates stored bytes. -/
def Obligations.FrameEncodeConcatenates : Prop :=
  ∀ (s : State) (f : RawFrame),
    exec (.frameEncode f) s = .next
      { s with
        ret := some (.bytes
          ([f.header.sync0, f.header.sync1, f.header.setDescriptor, f.declaredLength]
            ++ f.records.flatMap (fun r => r.length :: r.descriptor :: r.data)
            ++ [f.checksum.msb, f.checksum.lsb])) }

/-! ### The field codec -/

/-- R109: the offset table and NEED. -/
def Obligations.OffsetsAreRunningSizes : Prop :=
  ∀ (s : State) (layout : List Subfield), ∃ (table : List Nat) (n : Nat),
    exec (.offsets layout) s = .next { s with ret := some (.offsets table n) }
    ∧ table.length = layout.length
    ∧ (∀ o, table[0]? = some o → o = 0)
    ∧ (∀ (i o : Nat) (sf : Subfield), i + 1 < layout.length → table[i]? = some o → layout[i]? = some sf →
        table[i + 1]? = some (o + sf.prim.size))
    ∧ (layout = [] → n = 0)
    ∧ (∀ (o : Nat) (sf : Subfield), table.getLast? = some o → layout.getLast? = some sf → n = o + sf.prim.size)

/-- R110, R112: the decode fails exactly when the data are shorter than NEED, and else returns the value of every
subfield at its offset, in layout order; bytes beyond NEED are not looked at. -/
def Obligations.FieldDecodeNeedsTheWholeLayout : Prop :=
  ∀ (s : State) (rt : RecordType) (r : RawRecord),
    (r.data.length < need rt.layout →
      exec (.fieldDecode rt r) s = .next { s with ret := some (.typed (.err .fieldDecodeFailure)) })
    ∧ (need rt.layout ≤ r.data.length →
      exec (.fieldDecode rt r) s = .next
        { s with
          ret := some (.typed (.ok
            { categoryId := rt.categoryId
              typeId := rt.typeId
              values := (rt.layout.zip (offsets rt.layout)).map fun p =>
                valueOf p.1.prim.kind (slice r.data p.2 (p.2 + p.1.prim.size)) })) }
      ∧ ∀ extra : List Byte, exec (.fieldDecode rt { r with data := r.data ++ extra }) s = exec (.fieldDecode rt r) s)

/-- R111 with R37: the bit pattern is the big-endian number, below `256^s`; unsigned is read as it is, signed as
two's complement (G1, supplied by the spec from general knowledge), a float has the pattern alone. -/
def Obligations.ValueIsTheBigEndianNumber : Prop :=
  ∀ (s : State) (k : Kind) (raw : List Byte), ∃ (n : Nat) (x : Option Int),
    exec (.value k raw) s = .next { s with ret := some (.value { kind := k, size := raw.length, bits := n } x) }
    ∧ n = ((List.range raw.length).map fun i => (byteAt raw i).toNat * 256 ^ (raw.length - 1 - i)).sum
    ∧ n < 256 ^ raw.length
    ∧ (k = .u → x = some (n : Int))
    ∧ (k = .i → raw ≠ [] → n < 2 ^ (8 * raw.length - 1) → x = some (n : Int))
    ∧ (k = .i → raw ≠ [] → 2 ^ (8 * raw.length - 1) ≤ n → x = some ((n : Int) - (2 : Int) ^ (8 * raw.length)))
    ∧ (k = .f → x = none)

/-- R113: encoding writes each value's bytes, most significant first and unpadded, under the type id, with the length
byte `2 + NEED` where that is a byte (above 255 the length byte is a free value: assumption log 21); and it is the
exact inverse of decoding, of a record of the type whose data have exactly NEED bytes. -/
def Obligations.FieldEncodeInvertsDecode : Prop :=
  ∀ (s : State) (t : TypedRecord),
    (∃ r : RawRecord,
      exec (.fieldEncode t) s = .next { s with ret := some (.record r) }
      ∧ r.descriptor = t.typeId
      ∧ r.data = t.values.flatMap (fun v => beBytes v.size v.bits)
      ∧ r.data.length = (t.values.map fun v => v.size).sum
      ∧ (2 + r.data.length < 256 → r.length.toNat = 2 + r.data.length))
    ∧ (∀ (rt : RecordType) (r : RawRecord), fieldDecode rt r = .ok t →
        r.descriptor = rt.typeId → r.data.length = need rt.layout → r.length.toNat = 2 + r.data.length →
        exec (.fieldEncode t) s = .next { s with ret := some (.record r) })

/-! ### The step, reset, the invariant -/

/-- R63, R56: with a byte waiting and no reset asserted, the step pops the oldest byte and runs the row that the
decoder selects for it. -/
def Obligations.StepRunsTheSelectedRow : Prop :=
  ∀ (s : State) (v : Byte) (rest : List Byte) (i : Instr), s.resetReq = false → s.rxq = v :: rest →
    decode (.stream s.st s.rem) s.rxq = .ok i →
      step s = exec i { s with rxq := rest, frameOk := false, errCode := 0 }

/-- The direct calls (assumption log 5): with the input queue empty the step runs the oldest queued call, whatever its
operands are (R131; assumption log 23). -/
def Obligations.StepRunsTheQueuedCall : Prop :=
  ∀ (s : State) (i : Instr) (rest : List Instr), s.resetReq = false → s.rxq = [] → s.calls = i :: rest →
    step s = exec i { s with calls := rest, frameOk := false, errCode := 0 }

/-- R29: the values the spec gives for reset. -/
def Obligations.ResetStateIsAsTheSpecSays : Prop :=
  State.reset.st = .awaitSync0 ∧ State.reset.buf = [] ∧ State.reset.a = 0 ∧ State.reset.b = 0
    ∧ State.reset.rxq = [] ∧ State.reset.out = [] ∧ State.reset.log = []
    ∧ State.reset.frameOk = false ∧ State.reset.errCode = 0

/-- R142, R29: an asserted reset drops the partial frame and the bytes waiting in `rxq`, whatever the state, and leaves
every value the spec gives for reset.  The model's choice (assumption log 22): the step takes the request back, and
what the byte source and the handler are about to do and the parameters are not touched. -/
def Obligations.AssertedResetGivesTheResetValues : Prop :=
  ∀ s : State, s.resetReq = true → ∃ t : State, step s = .next t
    ∧ t.st = .awaitSync0 ∧ t.buf = [] ∧ t.rxq = [] ∧ t.out = [] ∧ t.log = []
    ∧ t.a = 0 ∧ t.b = 0 ∧ t.frameOk = false ∧ t.errCode = 0
    ∧ t.resetReq = false ∧ t.source = s.source ∧ t.handlerAnswers = s.handlerAnswers ∧ t.cfg = s.cfg

/-- The reset state meets the invariant, whatever the OPEN parameters are. -/
def Obligations.ResetMeetsTheInvariant : Prop := State.reset.Inv

/-- R25 as an invariant: every step keeps it, whatever runs. -/
def Obligations.EveryStepKeepsTheInvariant : Prop :=
  ∀ s t : State, s.Inv → step s = .next t → t.Inv

/-- R131: the block has no fault state of its own.  A step from a state of the invariant answers a next state, but
for a handler that never returns. -/
def Obligations.StepStopsOnlyForTheHandler : Prop :=
  ∀ s : State, s.Inv → (∀ i ∈ s.calls, i.callable = true) →
    (∃ t : State, step s = .next t)
    ∨ (step s = .fault .handlerNeverReturns ∧ .never ∈ s.handlerAnswers)

/-- R78: the loop has no exit: where every handler invocation returns, the block runs for ever, on any stream with any
timeouts and errors. -/
def Obligations.TheLoopHasNoExit : Prop :=
  ∀ s : State, s.Inv → s.calls = [] → (∀ h ∈ s.handlerAnswers, h = .returns) → Safe s

/-- R30: no step writes the parameters; R31, R23, R24: but for reset, the traces are append only. -/
def Obligations.ParametersStandAndTracesGrow : Prop :=
  ∀ s t : State, step s = .next t →
    t.cfg = s.cfg ∧ (s.resetReq = false → s.out <+: t.out ∧ s.log <+: t.log)

/-- R23, R72: from the stream, the handler is invoked only in the step of the byte that completes a frame that
decodes, once, and with that frame. -/
def Obligations.HandlerIsInvokedOnlyForAcceptedFrames : Prop :=
  ∀ s t : State, s.Streaming → step s = .next t → t.out ≠ s.out →
    ∃ (v : Byte) (rest : List Byte) (f : RawFrame),
      s.rxq = v :: rest ∧ s.st = .awaitBody ∧ s.rem = 1 ∧ frameDecode (s.buf ++ [v]) = .ok f
        ∧ t.out = s.out ++ [{ frame := f, dispatch := dispatch s.cfg.catalog f }]

/-- R15, R17, R21: `cat`, and `rem` outside `AwaitBody`, and the scratch of earlier decodes, are not read: what they
hold, their value after reset included, changes nothing that is observed of a step. -/
def Obligations.UnreadRegistersDoNotMatter : Prop :=
  ∀ (s t : State) (c a' b' : Byte) (n off' : Nat) (recs' : List RawRecord),
    s.Streaming → (s.st = .awaitBody → n = s.rem) → step s = .next t →
    ∃ t' : State, step { s with cat := c, rem := n, a := a', b := b', off := off', recs := recs' } = .next t'
      ∧ t'.st = t.st ∧ t'.buf = t.buf ∧ t'.rxq = t.rxq ∧ t'.out = t.out ∧ t'.log = t.log
      ∧ t'.frameOk = t.frameOk ∧ t'.errCode = t.errCode
      ∧ t'.source = t.source ∧ t'.handlerAnswers = t.handlerAnswers
      ∧ (t.st = .awaitBody → t'.rem = t.rem)

/-- R32, R63, R42: as many steps as bytes wait in the queue consume exactly those bytes, in order, one a step. -/
def Obligations.QueuedBytesAreConsumedInOrder : Prop :=
  ∀ (s : State) (w rest : List Byte), s.resetReq = false → s.rxq = w ++ rest →
    run w.length s = consumeBytes w { s with rxq := rest }

/-- R154, R22: the result of a finite stream depends on the stream alone, not on its split into reads nor on the
timeouts and I/O errors between them: run to the end of the source, the block has the handler trace, the log less its
`IoError` entries, and the `st`, `rem` and `buf` of consuming the concatenation. -/
def Obligations.ResultDependsOnTheStreamAlone : Prop :=
  ∀ s : State, s.Inv → s.Streaming → s.rxq = [] → (∀ h ∈ s.handlerAnswers, h = .returns) →
    ∃ (k : Nat) (t u : State),
      run k s = .next t
      ∧ consumeBytes (streamOf s.source) { s with source := [] } = .next u
      ∧ t.source = [] ∧ t.rxq = [] ∧ t.out = u.out
      ∧ t.log.filter (· ≠ .ioError) = u.log.filter (· ≠ .ioError)
      ∧ t.st = u.st ∧ t.rem = u.rem ∧ t.buf = u.buf

/-! ### Encodings -/

/-- R56, R58, R52, R48, R50: decoding the encoding of a well-formed instruction gives it back, with every operand,
and with whatever bytes follow it. -/
def Obligations.DecodeOfEncodeIsTheInstruction : Prop :=
  ∀ (i : Instr) (p : Place) (w rest : List Byte), i.wellFormed = true → encode i = some (p, w) →
    decode p (w ++ rest) = .ok i

/-- R56: the byte-class map is total: every byte in every sync state has exactly one row, and only `AwaitBody` with
`rem = 0`, which no step boundary has (R15), has none. -/
def Obligations.ByteClassMapIsTotal : Prop :=
  ∀ (st : SyncState) (rem : Nat) (v : Byte) (rest : List Byte),
    decode (.stream st rem) (v :: rest) =
      match st with
      | .awaitSync0 => if v = 0x75 then .ok .sync0Hit else .ok (.sync0Miss v)
      | .awaitSync1 => if v = 0x65 then .ok .sync1Hit else .ok (.sync1Miss v)
      | .awaitDescriptor => .ok (.desc v)
      | .awaitLength => .ok (.len v)
      | .awaitBody => if rem = 0 then .err .noRow else if rem = 1 then .ok (.bodyLast v) else .ok (.body v)

/-- Words written out from spec/30_encoding.md and spec/95_test_vectors.md decode to what they stand for. -/
def Obligations.WrittenOutWordsDecode : Prop :=
  decode (.stream .awaitSync0 0) [0x75] = .ok .sync0Hit
  ∧ decode (.stream .awaitSync1 0) [0x75] = .ok (.sync1Miss 0x75)
  ∧ decode (.stream .awaitLength 0) [0x07] = .ok (.len 0x07)
  ∧ decode (.stream .awaitBody 1) [0x04] = .ok (.bodyLast 0x04)
  ∧ decode .category [0x82] = .ok .cat82
  ∧ decode .category [0x55] = .ok (.catOther 0x55)
  ∧ decode .record [0x04, 0x04, 0x00, 0x01, 0x05] = .ok (.record ⟨0x04, 0x04, [0x00, 0x01]⟩)
  ∧ decode .checksum [0x2A, 0x04] = .ok (.ck 0x2A 0x04)
  ∧ decode .frame [0x75, 0x65, 0x01, 0x01, 0xDC, 0x06] = .ok (.frame ⟨⟨0x75, 0x65, 0x01⟩, 0x01, [], ⟨0xDC, 0x06⟩⟩)

/-! ### Several instances -/

/-- R45: two instances share nothing: however the steps of any number of instances are interleaved, each is where its
own steps, run alone, take it, a stop of another one included; and the order between the steps of different instances
decides nothing.  What they do share, the read-only catalog (R139), no interleaving changes. -/
def Obligations.InstancesShareNothing : Prop :=
  ∀ (schedule : List Nat) (m : Instances),
    (∀ k : Nat, (Instances.interleave schedule m)[k]? = m[k]?.map fun o => andThen o (run (schedule.count k)))
    ∧ (∀ other : List Nat, schedule.Perm other → Instances.interleave other m = Instances.interleave schedule m)
    ∧ (∀ c : Catalog, m.ShareCatalog c → (Instances.interleave schedule m).ShareCatalog c)
end

