-- ==== Sys2Proof/Laws/Codec.lean ====
section
/-! SUPPORT. The lemmas of the pure units: slices, big-endian numbers, the checksum, the record parser's loop. -/

namespace Sys2Proof

/-! ### Slices -/

@[simp] theorem slice_length (s : List Byte) (i j : Nat) : (slice s i j).length = min (j - i) (s.length - i) := by
  simp [slice]

theorem slice_zero_length (s : List Byte) : slice s 0 s.length = s := by
  simp [slice]

/-- A slice is split at any offset inside it. -/
theorem slice_split (s : List Byte) {i k j : Nat} (hik : i ≤ k) (hkj : k ≤ j) :
    slice s i j = slice s i k ++ slice s k j := by
  unfold slice
  have h : j - i = (k - i) + (j - k) := by omega
  rw [h, List.take_add, List.drop_drop]
  have h2 : i + (k - i) = k := by omega
  rw [h2]

theorem slice_append_left (u w : List Byte) {i j : Nat} (h : j ≤ u.length) : slice (u ++ w) i j = slice u i j := by
  unfold slice
  by_cases hi : i ≤ u.length
  · rw [List.drop_append_of_le_length hi, List.take_append_of_le_length (by simp; omega)]
  · have : j - i = 0 := by omega
    simp [this]

theorem slice_append_mid (u w x : List Byte) : slice (u ++ w ++ x) u.length (u.length + w.length) = w := by
  simp [slice]

theorem byteAt_append_left (u w : List Byte) {i : Nat} (h : i < u.length) : byteAt (u ++ w) i = byteAt u i := by
  simp [byteAt, List.getElem?_append_left h]

theorem byteAt_append_right (u w : List Byte) (i : Nat) : byteAt (u ++ w) (u.length + i) = byteAt w i := by
  simp [byteAt, List.getElem?_append_right]

/-- The first byte of a non-empty slice, and the rest of it. -/
theorem slice_cons (s : List Byte) {i j : Nat} (hij : i < j) (hi : i < s.length) :
    slice s i j = byteAt s i :: slice s (i + 1) j := by
  unfold slice byteAt
  have h : j - i = (j - (i + 1)) + 1 := by omega
  rw [List.drop_eq_getElem_cons hi, h, List.take_succ_cons]
  simp [List.getD_eq_getElem?_getD, hi]

/-! ### The checksum -/

@[simp] theorem csum_nil : csum [] = (0, 0) := rfl

theorem csum_append (u w : List Byte) : csum (u ++ w) = w.foldl csumStep (csum u) := by
  simp [csum]

theorem csum_snoc (u : List Byte) (v : Byte) : csum (u ++ [v]) = csumStep (csum u) v := by
  simp [csum_append]

@[simp] theorem covered_pair (w : List Byte) (x y : Byte) : covered (w ++ [x, y]) = w := by
  simp [covered, slice, Config.ckLen]

@[simp] theorem trailer_pair (w : List Byte) (x y : Byte) : trailer (w ++ [x, y]) = (x, y) := by
  simp [trailer, byteAt, Config.ckLen]

theorem csumCheck_pair (w : List Byte) (x y : Byte) : csumCheck (w ++ [x, y]) = decide ((x, y) = csum w) := by
  simp [csumCheck, Config.ckLen]

/-- Two bytes and more end in a pair. -/
theorem exists_pair (s : List Byte) (h : 2 ≤ s.length) : ∃ (w : List Byte) (x y : Byte), s = w ++ [x, y] := by
  obtain ⟨u, y, rfl⟩ := List.eq_nil_or_concat s |>.resolve_left (by rintro rfl; simp at h)
  obtain ⟨w, x, rfl⟩ := List.eq_nil_or_concat u |>.resolve_left (by rintro rfl; simp at h)
  exact ⟨w, x, y, by simp⟩

/-! ### Records -/

/-- What REC.PARSE guarantees of each record it returns (R99): `RawRecord.LengthCounts` with its number written out. -/
abbrev RawRecord.Tiled (r : RawRecord) : Prop := r.length.toNat = 2 + r.data.length

theorem RawRecord.tiled_iff (r : RawRecord) : r.Tiled ↔ r.LengthCounts := Iff.rfl

/-- The record at an offset, with its number written out (R94). -/
theorem recordAt_def (P : List Byte) (off rl : Nat) :
    recordAt P off rl = ⟨byteAt P off, byteAt P (off + 1), slice P (off + 2) (off + rl)⟩ := rfl

theorem RawRecord.bytes_length {r : RawRecord} (h : r.Tiled) : r.bytes.length = r.length.toNat := by
  simp [RawRecord.bytes, h]; omega

@[simp] theorem recordsBytes_nil : recordsBytes [] = [] := rfl

@[simp] theorem recordsBytes_cons (r : RawRecord) (rs : List RawRecord) :
    recordsBytes (r :: rs) = r.bytes ++ recordsBytes rs := by
  simp [recordsBytes]

theorem recordsBytes_append (rs ts : List RawRecord) : recordsBytes (rs ++ ts) = recordsBytes rs ++ recordsBytes ts := by
  simp [recordsBytes]

@[simp] theorem payloadLength_nil : payloadLength [] = 1 := rfl

@[simp] theorem payloadLength_cons (r : RawRecord) (rs : List RawRecord) :
    payloadLength (r :: rs) = r.length.toNat + payloadLength rs := by
  simp [payloadLength]; omega

theorem recordsBytes_length {rs : List RawRecord} (h : ∀ r ∈ rs, r.Tiled) :
    (recordsBytes rs).length + 1 = payloadLength rs := by
  induction rs with
  | nil => rfl
  | cons r rs ih =>
    have hr := RawRecord.bytes_length (h r (by simp))
    have := ih fun x hx => h x (by simp [hx])
    simp [hr]; omega

/-- The record the parser slices off at `off` is the one whose bytes stand there. -/
theorem recordAt_of_drop {P rest : List Byte} {off : Nat} {r : RawRecord} (hr : r.Tiled)
    (h : P.drop off = r.bytes ++ rest) : byteAt P off = r.length ∧ recordAt P off r.length.toNat = r := by
  have hlen : off ≤ P.length := by
    by_contra hc
    rw [List.drop_eq_nil_of_le (by omega)] at h
    simp [RawRecord.bytes] at h
  obtain ⟨u, hu, rfl⟩ : ∃ u : List Byte, u.length = off ∧ P = u ++ (r.bytes ++ rest) :=
    ⟨P.take off, by simp [hlen], by rw [← h, List.take_append_drop]⟩
  subst hu
  have e : r.length.toNat - 2 = r.data.length := by omega
  have e2 : u.length + r.length.toNat - (u.length + 2) = r.data.length := by omega
  have d : (u ++ (r.bytes ++ rest)).drop (u.length + 2) = r.data ++ rest := by
    simp [RawRecord.bytes]
  have b0 : byteAt (u ++ (r.bytes ++ rest)) u.length = r.length := by
    simp [RawRecord.bytes, byteAt]
  have b1 : byteAt (u ++ (r.bytes ++ rest)) (u.length + 1) = r.descriptor := by
    simp [RawRecord.bytes, byteAt]
  have b2 : slice (u ++ (r.bytes ++ rest)) (u.length + 2) (u.length + r.length.toNat) = r.data := by
    unfold slice; rw [d, e2]; simp
  refine ⟨b0, ?_⟩
  rw [recordAt_def]
  rw [b0, b1, b2]

/-- One pass of the loop of R94, with its numbers written out. -/
theorem recLoop_succ (P : List Byte) (L lim fuel off : Nat) (acc : List RawRecord) :
    recLoop P L lim (fuel + 1) off acc =
      if off < L then
        if lim - off < 2 then ⟨off, acc, some (.insufficientBytes 2 (lim - off))⟩
        else if (byteAt P off).toNat < 2 then ⟨off, acc, some (.insufficientBytes 2 (byteAt P off).toNat)⟩
        else if lim - off < (byteAt P off).toNat then
          ⟨off, acc, some (.insufficientBytes (byteAt P off).toNat (lim - off))⟩
        else recLoop P L lim fuel (off + (byteAt P off).toNat) (acc ++ [recordAt P off (byteAt P off).toNat])
      else ⟨off, acc, none⟩ := rfl

/-- The loop over records that stand packed at `off` inside the limit: it takes them all. -/
theorem recLoop_packed (P : List Byte) (L lim : Nat) (rs : List RawRecord) :
    ∀ (fuel off : Nat) (acc : List RawRecord) (rest : List Byte), (∀ r ∈ rs, r.Tiled) →
      P.drop off = recordsBytes rs ++ rest → off + (payloadLength rs - 1) ≤ lim → lim ≤ L →
      recLoop P L lim (fuel + rs.length) off acc = recLoop P L lim fuel (off + (payloadLength rs - 1)) (acc ++ rs) := by
  induction rs with
  | nil => intro fuel off acc rest _ _ _ _; simp
  | cons r rs ih =>
    intro fuel off acc rest ht hd hl hL
    have hr : r.Tiled := ht r (by simp)
    have hpos : 1 ≤ payloadLength rs := by simp [payloadLength]
    obtain ⟨hb, hrec⟩ := recordAt_of_drop (P := P) (off := off) (rest := recordsBytes rs ++ rest) hr (by simpa using hd)
    have hd' : P.drop (off + r.length.toNat) = recordsBytes rs ++ rest := by
      rw [← List.drop_drop, hd, ← RawRecord.bytes_length hr]; simp
    rw [payloadLength_cons] at hl ⊢
    have h2 : 2 ≤ r.length.toNat := by rw [hr]; omega
    rw [List.length_cons, ← Nat.add_assoc, recLoop_succ]
    simp only [hb, hrec]
    rw [if_pos (by omega), if_neg (by omega), if_neg (by omega), if_neg (by omega),
      ih fuel _ _ rest (fun x hx => ht x (by simp [hx])) hd' (by omega) hL]
    simp only [List.append_assoc, List.singleton_append]
    congr 1; omega

/-- What the loop answers without an error: records that tile `P` from `off` to the offset it ends at, which is
`L` or beyond where the fuel was enough. -/
theorem recLoop_sound (P : List Byte) (L lim : Nat) (hlim : lim ≤ P.length) :
    ∀ (fuel off : Nat) (acc : List RawRecord), L ≤ off + 2 * fuel → (recLoop P L lim fuel off acc).error = none →
      ∃ rs : List RawRecord, (recLoop P L lim fuel off acc).recs = acc ++ rs ∧ (∀ r ∈ rs, r.Tiled)
        ∧ (recLoop P L lim fuel off acc).off = off + (payloadLength rs - 1)
        ∧ slice P off (off + (payloadLength rs - 1)) = recordsBytes rs
        ∧ L ≤ off + (payloadLength rs - 1) ∧ (rs = [] ∨ off + (payloadLength rs - 1) ≤ lim) := by
  intro fuel
  induction fuel with
  | zero =>
    intro off acc hf _
    exact ⟨[], by simp [recLoop], by simp, by simp [recLoop], by simp [slice], by simpa using hf, .inl rfl⟩
  | succ fuel ih =>
    intro off acc hf he
    rw [recLoop_succ] at he ⊢
    by_cases h1 : off < L
    · rw [if_pos h1] at he ⊢
      by_cases h2 : lim - off < 2
      · rw [if_pos h2] at he; simp at he
      rw [if_neg h2] at he ⊢
      by_cases h3 : (byteAt P off).toNat < 2
      · rw [if_pos h3] at he; simp at he
      rw [if_neg h3] at he ⊢
      by_cases h4 : lim - off < (byteAt P off).toNat
      · rw [if_pos h4] at he; simp at he
      rw [if_neg h4] at he ⊢
      obtain ⟨rs, hr, ht, ho, hs, hL, hl⟩ := ih (off + (byteAt P off).toNat) _ (by omega) he
      have hn : (recordAt P off (byteAt P off).toNat).length.toNat = (byteAt P off).toNat := rfl
      have hpos : 1 ≤ payloadLength rs := by simp [payloadLength]
      have htile : (recordAt P off (byteAt P off).toNat).Tiled := by
        simp only [RawRecord.Tiled, recordAt_def, slice_length]; omega
      have hbytes : slice P off (off + (byteAt P off).toNat) = (recordAt P off (byteAt P off).toNat).bytes := by
        rw [slice_cons P (by omega) (by omega), slice_cons P (by omega) (by omega)]
        rfl
      refine ⟨recordAt P off (byteAt P off).toNat :: rs, by simp [hr], ?_, ?_, ?_, ?_, .inr ?_⟩
      · simpa using ⟨htile, ht⟩
      · rw [ho, payloadLength_cons, hn]; omega
      · rw [payloadLength_cons, hn, recordsBytes_cons, ← hbytes, ← hs,
          slice_split P (k := off + (byteAt P off).toNat) (by omega) (by omega)]
        congr 2; omega
      · rw [payloadLength_cons, hn]; omega
      · rw [payloadLength_cons, hn]
        rcases hl with rfl | hl
        · simp; omega
        · omega
    · rw [if_neg h1] at he ⊢
      exact ⟨[], by simp, by simp, by simp, by simp [slice], by simp; omega, .inl rfl⟩

/-- The fuel of the loop is never used up: more of it changes nothing. -/
theorem recLoop_fuel (P : List Byte) (L lim : Nat) :
    ∀ (fuel off : Nat) (acc : List RawRecord), L ≤ off + 2 * fuel →
      recLoop P L lim (fuel + 1) off acc = recLoop P L lim fuel off acc := by
  intro fuel
  induction fuel with
  | zero =>
    intro off acc h
    rw [recLoop_succ, if_neg (by omega), recLoop]
  | succ fuel ih =>
    intro off acc h
    rw [recLoop_succ P L lim (fuel + 1), recLoop_succ P L lim fuel off acc]
    split_ifs <;> first | rfl | exact ih _ _ (by omega)

/-! ### Catalog and record map -/

theorem distinctSlots_spec (seen : List Byte) (rts : List RecordType) :
    (∀ rt ∈ Config.distinctSlots seen rts, rt ∈ rts ∧ rt.typeId ∉ seen)
      ∧ ((Config.distinctSlots seen rts).map RecordType.typeId).Nodup := by
  induction rts generalizing seen with
  | nil => simp [Config.distinctSlots]
  | cons rt rts ih =>
    unfold Config.distinctSlots
    split_ifs with h
    · exact ⟨fun x hx => ⟨by simp [((ih seen).1 x hx).1], ((ih seen).1 x hx).2⟩, (ih seen).2⟩
    · obtain ⟨h1, h2⟩ := ih (rt.typeId :: seen)
      refine ⟨?_, ?_⟩
      · intro x hx
        rcases List.mem_cons.1 hx with rfl | hx
        · exact ⟨by simp, h⟩
        · exact ⟨by simp [(h1 x hx).1], fun hm => (h1 x hx).2 (by simp [hm])⟩
      · simp only [List.map_cons, List.nodup_cons]
        refine ⟨?_, h2⟩
        intro hm
        obtain ⟨x, hx, he⟩ := List.mem_map.1 hm
        exact (h1 x hx).2 (by simp [he])

theorem mapGet_mapSet (k k' : Byte) (r : RawRecord) (m : List (Byte × RawRecord)) :
    mapGet k (mapSet k' r m) = if k' = k then some r else mapGet k m := by
  induction m with
  | nil => simp [mapSet, mapGet]
  | cons p m ih =>
    obtain ⟨q, r'⟩ := p
    simp only [mapSet]
    by_cases h : q = k'
    · subst h; by_cases hk : q = k <;> simp [mapGet, hk]
    · by_cases hk : q = k
      · subst hk; simp [mapGet, h, Ne.symm h]
      · simp [mapGet, h, hk, ih]

theorem indexRecords_snoc (rs : List RawRecord) (r : RawRecord) :
    indexRecords (rs ++ [r]) = mapSet r.descriptor r (indexRecords rs) := by
  simp [indexRecords]

end Sys2Proof
end

