-- ==== Sys2Proof/Laws/State.lean ====
section
/-! SUPPORT. One lemma per field per named update of State, each true by rfl, so that no later proof unfolds a record
update. -/

namespace Sys2Proof.Machine

variable (s : State)

/-! `State.bufAppend` -/

@[simp] theorem State.bufAppend_st (v : Byte) : (s.bufAppend v).st = s.st := rfl
@[simp] theorem State.bufAppend_rem (v : Byte) : (s.bufAppend v).rem = s.rem := rfl
@[simp] theorem State.bufAppend_buf (v : Byte) : (s.bufAppend v).buf = s.buf ++ [v] := rfl
@[simp] theorem State.bufAppend_cat (v : Byte) : (s.bufAppend v).cat = s.cat := rfl
@[simp] theorem State.bufAppend_a (v : Byte) : (s.bufAppend v).a = s.a := rfl
@[simp] theorem State.bufAppend_b (v : Byte) : (s.bufAppend v).b = s.b := rfl
@[simp] theorem State.bufAppend_off (v : Byte) : (s.bufAppend v).off = s.off := rfl
@[simp] theorem State.bufAppend_recs (v : Byte) : (s.bufAppend v).recs = s.recs := rfl
@[simp] theorem State.bufAppend_rxq (v : Byte) : (s.bufAppend v).rxq = s.rxq := rfl
@[simp] theorem State.bufAppend_frameOk (v : Byte) : (s.bufAppend v).frameOk = s.frameOk := rfl
@[simp] theorem State.bufAppend_errCode (v : Byte) : (s.bufAppend v).errCode = s.errCode := rfl
@[simp] theorem State.bufAppend_out (v : Byte) : (s.bufAppend v).out = s.out := rfl
@[simp] theorem State.bufAppend_log (v : Byte) : (s.bufAppend v).log = s.log := rfl
@[simp] theorem State.bufAppend_source (v : Byte) : (s.bufAppend v).source = s.source := rfl
@[simp] theorem State.bufAppend_handlerAnswers (v : Byte) : (s.bufAppend v).handlerAnswers = s.handlerAnswers := rfl
@[simp] theorem State.bufAppend_resetReq (v : Byte) : (s.bufAppend v).resetReq = s.resetReq := rfl
@[simp] theorem State.bufAppend_calls (v : Byte) : (s.bufAppend v).calls = s.calls := rfl
@[simp] theorem State.bufAppend_ret (v : Byte) : (s.bufAppend v).ret = s.ret := rfl
@[simp] theorem State.bufAppend_cfg (v : Byte) : (s.bufAppend v).cfg = s.cfg := rfl

/-! `State.bufClear` -/

@[simp] theorem State.bufClear_st : s.bufClear.st = s.st := rfl
@[simp] theorem State.bufClear_rem : s.bufClear.rem = s.rem := rfl
@[simp] theorem State.bufClear_buf : s.bufClear.buf = [] := rfl
@[simp] theorem State.bufClear_cat : s.bufClear.cat = s.cat := rfl
@[simp] theorem State.bufClear_a : s.bufClear.a = s.a := rfl
@[simp] theorem State.bufClear_b : s.bufClear.b = s.b := rfl
@[simp] theorem State.bufClear_off : s.bufClear.off = s.off := rfl
@[simp] theorem State.bufClear_recs : s.bufClear.recs = s.recs := rfl
@[simp] theorem State.bufClear_rxq : s.bufClear.rxq = s.rxq := rfl
@[simp] theorem State.bufClear_frameOk : s.bufClear.frameOk = s.frameOk := rfl
@[simp] theorem State.bufClear_errCode : s.bufClear.errCode = s.errCode := rfl
@[simp] theorem State.bufClear_out : s.bufClear.out = s.out := rfl
@[simp] theorem State.bufClear_log : s.bufClear.log = s.log := rfl
@[simp] theorem State.bufClear_source : s.bufClear.source = s.source := rfl
@[simp] theorem State.bufClear_handlerAnswers : s.bufClear.handlerAnswers = s.handlerAnswers := rfl
@[simp] theorem State.bufClear_resetReq : s.bufClear.resetReq = s.resetReq := rfl
@[simp] theorem State.bufClear_calls : s.bufClear.calls = s.calls := rfl
@[simp] theorem State.bufClear_ret : s.bufClear.ret = s.ret := rfl
@[simp] theorem State.bufClear_cfg : s.bufClear.cfg = s.cfg := rfl

/-! `State.rxFill` -/

@[simp] theorem State.rxFill_st (bs : List Byte) : (s.rxFill bs).st = s.st := rfl
@[simp] theorem State.rxFill_rem (bs : List Byte) : (s.rxFill bs).rem = s.rem := rfl
@[simp] theorem State.rxFill_buf (bs : List Byte) : (s.rxFill bs).buf = s.buf := rfl
@[simp] theorem State.rxFill_cat (bs : List Byte) : (s.rxFill bs).cat = s.cat := rfl
@[simp] theorem State.rxFill_a (bs : List Byte) : (s.rxFill bs).a = s.a := rfl
@[simp] theorem State.rxFill_b (bs : List Byte) : (s.rxFill bs).b = s.b := rfl
@[simp] theorem State.rxFill_off (bs : List Byte) : (s.rxFill bs).off = s.off := rfl
@[simp] theorem State.rxFill_recs (bs : List Byte) : (s.rxFill bs).recs = s.recs := rfl
@[simp] theorem State.rxFill_rxq (bs : List Byte) : (s.rxFill bs).rxq = bs := rfl
@[simp] theorem State.rxFill_frameOk (bs : List Byte) : (s.rxFill bs).frameOk = s.frameOk := rfl
@[simp] theorem State.rxFill_errCode (bs : List Byte) : (s.rxFill bs).errCode = s.errCode := rfl
@[simp] theorem State.rxFill_out (bs : List Byte) : (s.rxFill bs).out = s.out := rfl
@[simp] theorem State.rxFill_log (bs : List Byte) : (s.rxFill bs).log = s.log := rfl
@[simp] theorem State.rxFill_source (bs : List Byte) : (s.rxFill bs).source = s.source := rfl
@[simp] theorem State.rxFill_handlerAnswers (bs : List Byte) : (s.rxFill bs).handlerAnswers = s.handlerAnswers := rfl
@[simp] theorem State.rxFill_resetReq (bs : List Byte) : (s.rxFill bs).resetReq = s.resetReq := rfl
@[simp] theorem State.rxFill_calls (bs : List Byte) : (s.rxFill bs).calls = s.calls := rfl
@[simp] theorem State.rxFill_ret (bs : List Byte) : (s.rxFill bs).ret = s.ret := rfl
@[simp] theorem State.rxFill_cfg (bs : List Byte) : (s.rxFill bs).cfg = s.cfg := rfl

/-! `State.setSt` -/

@[simp] theorem State.setSt_st (x : SyncState) : (s.setSt x).st = x := rfl
@[simp] theorem State.setSt_rem (x : SyncState) : (s.setSt x).rem = s.rem := rfl
@[simp] theorem State.setSt_buf (x : SyncState) : (s.setSt x).buf = s.buf := rfl
@[simp] theorem State.setSt_cat (x : SyncState) : (s.setSt x).cat = s.cat := rfl
@[simp] theorem State.setSt_a (x : SyncState) : (s.setSt x).a = s.a := rfl
@[simp] theorem State.setSt_b (x : SyncState) : (s.setSt x).b = s.b := rfl
@[simp] theorem State.setSt_off (x : SyncState) : (s.setSt x).off = s.off := rfl
@[simp] theorem State.setSt_recs (x : SyncState) : (s.setSt x).recs = s.recs := rfl
@[simp] theorem State.setSt_rxq (x : SyncState) : (s.setSt x).rxq = s.rxq := rfl
@[simp] theorem State.setSt_frameOk (x : SyncState) : (s.setSt x).frameOk = s.frameOk := rfl
@[simp] theorem State.setSt_errCode (x : SyncState) : (s.setSt x).errCode = s.errCode := rfl
@[simp] theorem State.setSt_out (x : SyncState) : (s.setSt x).out = s.out := rfl
@[simp] theorem State.setSt_log (x : SyncState) : (s.setSt x).log = s.log := rfl
@[simp] theorem State.setSt_source (x : SyncState) : (s.setSt x).source = s.source := rfl
@[simp] theorem State.setSt_handlerAnswers (x : SyncState) : (s.setSt x).handlerAnswers = s.handlerAnswers := rfl
@[simp] theorem State.setSt_resetReq (x : SyncState) : (s.setSt x).resetReq = s.resetReq := rfl
@[simp] theorem State.setSt_calls (x : SyncState) : (s.setSt x).calls = s.calls := rfl
@[simp] theorem State.setSt_ret (x : SyncState) : (s.setSt x).ret = s.ret := rfl
@[simp] theorem State.setSt_cfg (x : SyncState) : (s.setSt x).cfg = s.cfg := rfl

/-! `State.setRem` -/

@[simp] theorem State.setRem_st (n : Nat) : (s.setRem n).st = s.st := rfl
@[simp] theorem State.setRem_rem (n : Nat) : (s.setRem n).rem = n := rfl
@[simp] theorem State.setRem_buf (n : Nat) : (s.setRem n).buf = s.buf := rfl
@[simp] theorem State.setRem_cat (n : Nat) : (s.setRem n).cat = s.cat := rfl
@[simp] theorem State.setRem_a (n : Nat) : (s.setRem n).a = s.a := rfl
@[simp] theorem State.setRem_b (n : Nat) : (s.setRem n).b = s.b := rfl
@[simp] theorem State.setRem_off (n : Nat) : (s.setRem n).off = s.off := rfl
@[simp] theorem State.setRem_recs (n : Nat) : (s.setRem n).recs = s.recs := rfl
@[simp] theorem State.setRem_rxq (n : Nat) : (s.setRem n).rxq = s.rxq := rfl
@[simp] theorem State.setRem_frameOk (n : Nat) : (s.setRem n).frameOk = s.frameOk := rfl
@[simp] theorem State.setRem_errCode (n : Nat) : (s.setRem n).errCode = s.errCode := rfl
@[simp] theorem State.setRem_out (n : Nat) : (s.setRem n).out = s.out := rfl
@[simp] theorem State.setRem_log (n : Nat) : (s.setRem n).log = s.log := rfl
@[simp] theorem State.setRem_source (n : Nat) : (s.setRem n).source = s.source := rfl
@[simp] theorem State.setRem_handlerAnswers (n : Nat) : (s.setRem n).handlerAnswers = s.handlerAnswers := rfl
@[simp] theorem State.setRem_resetReq (n : Nat) : (s.setRem n).resetReq = s.resetReq := rfl
@[simp] theorem State.setRem_calls (n : Nat) : (s.setRem n).calls = s.calls := rfl
@[simp] theorem State.setRem_ret (n : Nat) : (s.setRem n).ret = s.ret := rfl
@[simp] theorem State.setRem_cfg (n : Nat) : (s.setRem n).cfg = s.cfg := rfl

/-! `State.setCat` -/

@[simp] theorem State.setCat_st (v : Byte) : (s.setCat v).st = s.st := rfl
@[simp] theorem State.setCat_rem (v : Byte) : (s.setCat v).rem = s.rem := rfl
@[simp] theorem State.setCat_buf (v : Byte) : (s.setCat v).buf = s.buf := rfl
@[simp] theorem State.setCat_cat (v : Byte) : (s.setCat v).cat = v := rfl
@[simp] theorem State.setCat_a (v : Byte) : (s.setCat v).a = s.a := rfl
@[simp] theorem State.setCat_b (v : Byte) : (s.setCat v).b = s.b := rfl
@[simp] theorem State.setCat_off (v : Byte) : (s.setCat v).off = s.off := rfl
@[simp] theorem State.setCat_recs (v : Byte) : (s.setCat v).recs = s.recs := rfl
@[simp] theorem State.setCat_rxq (v : Byte) : (s.setCat v).rxq = s.rxq := rfl
@[simp] theorem State.setCat_frameOk (v : Byte) : (s.setCat v).frameOk = s.frameOk := rfl
@[simp] theorem State.setCat_errCode (v : Byte) : (s.setCat v).errCode = s.errCode := rfl
@[simp] theorem State.setCat_out (v : Byte) : (s.setCat v).out = s.out := rfl
@[simp] theorem State.setCat_log (v : Byte) : (s.setCat v).log = s.log := rfl
@[simp] theorem State.setCat_source (v : Byte) : (s.setCat v).source = s.source := rfl
@[simp] theorem State.setCat_handlerAnswers (v : Byte) : (s.setCat v).handlerAnswers = s.handlerAnswers := rfl
@[simp] theorem State.setCat_resetReq (v : Byte) : (s.setCat v).resetReq = s.resetReq := rfl
@[simp] theorem State.setCat_calls (v : Byte) : (s.setCat v).calls = s.calls := rfl
@[simp] theorem State.setCat_ret (v : Byte) : (s.setCat v).ret = s.ret := rfl
@[simp] theorem State.setCat_cfg (v : Byte) : (s.setCat v).cfg = s.cfg := rfl

/-! `State.setSums` -/

@[simp] theorem State.setSums_st (ab : Byte × Byte) : (s.setSums ab).st = s.st := rfl
@[simp] theorem State.setSums_rem (ab : Byte × Byte) : (s.setSums ab).rem = s.rem := rfl
@[simp] theorem State.setSums_buf (ab : Byte × Byte) : (s.setSums ab).buf = s.buf := rfl
@[simp] theorem State.setSums_cat (ab : Byte × Byte) : (s.setSums ab).cat = s.cat := rfl
@[simp] theorem State.setSums_a (ab : Byte × Byte) : (s.setSums ab).a = ab.1 := rfl
@[simp] theorem State.setSums_b (ab : Byte × Byte) : (s.setSums ab).b = ab.2 := rfl
@[simp] theorem State.setSums_off (ab : Byte × Byte) : (s.setSums ab).off = s.off := rfl
@[simp] theorem State.setSums_recs (ab : Byte × Byte) : (s.setSums ab).recs = s.recs := rfl
@[simp] theorem State.setSums_rxq (ab : Byte × Byte) : (s.setSums ab).rxq = s.rxq := rfl
@[simp] theorem State.setSums_frameOk (ab : Byte × Byte) : (s.setSums ab).frameOk = s.frameOk := rfl
@[simp] theorem State.setSums_errCode (ab : Byte × Byte) : (s.setSums ab).errCode = s.errCode := rfl
@[simp] theorem State.setSums_out (ab : Byte × Byte) : (s.setSums ab).out = s.out := rfl
@[simp] theorem State.setSums_log (ab : Byte × Byte) : (s.setSums ab).log = s.log := rfl
@[simp] theorem State.setSums_source (ab : Byte × Byte) : (s.setSums ab).source = s.source := rfl
@[simp] theorem State.setSums_handlerAnswers (ab : Byte × Byte) : (s.setSums ab).handlerAnswers = s.handlerAnswers := rfl
@[simp] theorem State.setSums_resetReq (ab : Byte × Byte) : (s.setSums ab).resetReq = s.resetReq := rfl
@[simp] theorem State.setSums_calls (ab : Byte × Byte) : (s.setSums ab).calls = s.calls := rfl
@[simp] theorem State.setSums_ret (ab : Byte × Byte) : (s.setSums ab).ret = s.ret := rfl
@[simp] theorem State.setSums_cfg (ab : Byte × Byte) : (s.setSums ab).cfg = s.cfg := rfl

/-! `State.setScan` -/

@[simp] theorem State.setScan_st (sc : RecScan) : (s.setScan sc).st = s.st := rfl
@[simp] theorem State.setScan_rem (sc : RecScan) : (s.setScan sc).rem = s.rem := rfl
@[simp] theorem State.setScan_buf (sc : RecScan) : (s.setScan sc).buf = s.buf := rfl
@[simp] theorem State.setScan_cat (sc : RecScan) : (s.setScan sc).cat = s.cat := rfl
@[simp] theorem State.setScan_a (sc : RecScan) : (s.setScan sc).a = s.a := rfl
@[simp] theorem State.setScan_b (sc : RecScan) : (s.setScan sc).b = s.b := rfl
@[simp] theorem State.setScan_off (sc : RecScan) : (s.setScan sc).off = sc.off := rfl
@[simp] theorem State.setScan_recs (sc : RecScan) : (s.setScan sc).recs = sc.recs := rfl
@[simp] theorem State.setScan_rxq (sc : RecScan) : (s.setScan sc).rxq = s.rxq := rfl
@[simp] theorem State.setScan_frameOk (sc : RecScan) : (s.setScan sc).frameOk = s.frameOk := rfl
@[simp] theorem State.setScan_errCode (sc : RecScan) : (s.setScan sc).errCode = s.errCode := rfl
@[simp] theorem State.setScan_out (sc : RecScan) : (s.setScan sc).out = s.out := rfl
@[simp] theorem State.setScan_log (sc : RecScan) : (s.setScan sc).log = s.log := rfl
@[simp] theorem State.setScan_source (sc : RecScan) : (s.setScan sc).source = s.source := rfl
@[simp] theorem State.setScan_handlerAnswers (sc : RecScan) : (s.setScan sc).handlerAnswers = s.handlerAnswers := rfl
@[simp] theorem State.setScan_resetReq (sc : RecScan) : (s.setScan sc).resetReq = s.resetReq := rfl
@[simp] theorem State.setScan_calls (sc : RecScan) : (s.setScan sc).calls = s.calls := rfl
@[simp] theorem State.setScan_ret (sc : RecScan) : (s.setScan sc).ret = s.ret := rfl
@[simp] theorem State.setScan_cfg (sc : RecScan) : (s.setScan sc).cfg = s.cfg := rfl

/-! `State.setRet` -/

@[simp] theorem State.setRet_st (r : Ret) : (s.setRet r).st = s.st := rfl
@[simp] theorem State.setRet_rem (r : Ret) : (s.setRet r).rem = s.rem := rfl
@[simp] theorem State.setRet_buf (r : Ret) : (s.setRet r).buf = s.buf := rfl
@[simp] theorem State.setRet_cat (r : Ret) : (s.setRet r).cat = s.cat := rfl
@[simp] theorem State.setRet_a (r : Ret) : (s.setRet r).a = s.a := rfl
@[simp] theorem State.setRet_b (r : Ret) : (s.setRet r).b = s.b := rfl
@[simp] theorem State.setRet_off (r : Ret) : (s.setRet r).off = s.off := rfl
@[simp] theorem State.setRet_recs (r : Ret) : (s.setRet r).recs = s.recs := rfl
@[simp] theorem State.setRet_rxq (r : Ret) : (s.setRet r).rxq = s.rxq := rfl
@[simp] theorem State.setRet_frameOk (r : Ret) : (s.setRet r).frameOk = s.frameOk := rfl
@[simp] theorem State.setRet_errCode (r : Ret) : (s.setRet r).errCode = s.errCode := rfl
@[simp] theorem State.setRet_out (r : Ret) : (s.setRet r).out = s.out := rfl
@[simp] theorem State.setRet_log (r : Ret) : (s.setRet r).log = s.log := rfl
@[simp] theorem State.setRet_source (r : Ret) : (s.setRet r).source = s.source := rfl
@[simp] theorem State.setRet_handlerAnswers (r : Ret) : (s.setRet r).handlerAnswers = s.handlerAnswers := rfl
@[simp] theorem State.setRet_resetReq (r : Ret) : (s.setRet r).resetReq = s.resetReq := rfl
@[simp] theorem State.setRet_calls (r : Ret) : (s.setRet r).calls = s.calls := rfl
@[simp] theorem State.setRet_ret (r : Ret) : (s.setRet r).ret = some r := rfl
@[simp] theorem State.setRet_cfg (r : Ret) : (s.setRet r).cfg = s.cfg := rfl

/-! `State.setStatus` -/

@[simp] theorem State.setStatus_st (ok : Bool) (n : Nat) : (s.setStatus ok n).st = s.st := rfl
@[simp] theorem State.setStatus_rem (ok : Bool) (n : Nat) : (s.setStatus ok n).rem = s.rem := rfl
@[simp] theorem State.setStatus_buf (ok : Bool) (n : Nat) : (s.setStatus ok n).buf = s.buf := rfl
@[simp] theorem State.setStatus_cat (ok : Bool) (n : Nat) : (s.setStatus ok n).cat = s.cat := rfl
@[simp] theorem State.setStatus_a (ok : Bool) (n : Nat) : (s.setStatus ok n).a = s.a := rfl
@[simp] theorem State.setStatus_b (ok : Bool) (n : Nat) : (s.setStatus ok n).b = s.b := rfl
@[simp] theorem State.setStatus_off (ok : Bool) (n : Nat) : (s.setStatus ok n).off = s.off := rfl
@[simp] theorem State.setStatus_recs (ok : Bool) (n : Nat) : (s.setStatus ok n).recs = s.recs := rfl
@[simp] theorem State.setStatus_rxq (ok : Bool) (n : Nat) : (s.setStatus ok n).rxq = s.rxq := rfl
@[simp] theorem State.setStatus_frameOk (ok : Bool) (n : Nat) : (s.setStatus ok n).frameOk = ok := rfl
@[simp] theorem State.setStatus_errCode (ok : Bool) (n : Nat) : (s.setStatus ok n).errCode = n := rfl
@[simp] theorem State.setStatus_out (ok : Bool) (n : Nat) : (s.setStatus ok n).out = s.out := rfl
@[simp] theorem State.setStatus_log (ok : Bool) (n : Nat) : (s.setStatus ok n).log = s.log := rfl
@[simp] theorem State.setStatus_source (ok : Bool) (n : Nat) : (s.setStatus ok n).source = s.source := rfl
@[simp] theorem State.setStatus_handlerAnswers (ok : Bool) (n : Nat) : (s.setStatus ok n).handlerAnswers = s.handlerAnswers := rfl
@[simp] theorem State.setStatus_resetReq (ok : Bool) (n : Nat) : (s.setStatus ok n).resetReq = s.resetReq := rfl
@[simp] theorem State.setStatus_calls (ok : Bool) (n : Nat) : (s.setStatus ok n).calls = s.calls := rfl
@[simp] theorem State.setStatus_ret (ok : Bool) (n : Nat) : (s.setStatus ok n).ret = s.ret := rfl
@[simp] theorem State.setStatus_cfg (ok : Bool) (n : Nat) : (s.setStatus ok n).cfg = s.cfg := rfl

/-! `State.clearStatus` -/

@[simp] theorem State.clearStatus_st : s.clearStatus.st = s.st := rfl
@[simp] theorem State.clearStatus_rem : s.clearStatus.rem = s.rem := rfl
@[simp] theorem State.clearStatus_buf : s.clearStatus.buf = s.buf := rfl
@[simp] theorem State.clearStatus_cat : s.clearStatus.cat = s.cat := rfl
@[simp] theorem State.clearStatus_a : s.clearStatus.a = s.a := rfl
@[simp] theorem State.clearStatus_b : s.clearStatus.b = s.b := rfl
@[simp] theorem State.clearStatus_off : s.clearStatus.off = s.off := rfl
@[simp] theorem State.clearStatus_recs : s.clearStatus.recs = s.recs := rfl
@[simp] theorem State.clearStatus_rxq : s.clearStatus.rxq = s.rxq := rfl
@[simp] theorem State.clearStatus_frameOk : s.clearStatus.frameOk = false := rfl
@[simp] theorem State.clearStatus_errCode : s.clearStatus.errCode = 0 := rfl
@[simp] theorem State.clearStatus_out : s.clearStatus.out = s.out := rfl
@[simp] theorem State.clearStatus_log : s.clearStatus.log = s.log := rfl
@[simp] theorem State.clearStatus_source : s.clearStatus.source = s.source := rfl
@[simp] theorem State.clearStatus_handlerAnswers : s.clearStatus.handlerAnswers = s.handlerAnswers := rfl
@[simp] theorem State.clearStatus_resetReq : s.clearStatus.resetReq = s.resetReq := rfl
@[simp] theorem State.clearStatus_calls : s.clearStatus.calls = s.calls := rfl
@[simp] theorem State.clearStatus_ret : s.clearStatus.ret = s.ret := rfl
@[simp] theorem State.clearStatus_cfg : s.clearStatus.cfg = s.cfg := rfl

/-! `State.clearScratch` -/

@[simp] theorem State.clearScratch_st : s.clearScratch.st = s.st := rfl
@[simp] theorem State.clearScratch_rem : s.clearScratch.rem = s.rem := rfl
@[simp] theorem State.clearScratch_buf : s.clearScratch.buf = s.buf := rfl
@[simp] theorem State.clearScratch_cat : s.clearScratch.cat = s.cat := rfl
@[simp] theorem State.clearScratch_a : s.clearScratch.a = 0 := rfl
@[simp] theorem State.clearScratch_b : s.clearScratch.b = 0 := rfl
@[simp] theorem State.clearScratch_off : s.clearScratch.off = 0 := rfl
@[simp] theorem State.clearScratch_recs : s.clearScratch.recs = [] := rfl
@[simp] theorem State.clearScratch_rxq : s.clearScratch.rxq = s.rxq := rfl
@[simp] theorem State.clearScratch_frameOk : s.clearScratch.frameOk = s.frameOk := rfl
@[simp] theorem State.clearScratch_errCode : s.clearScratch.errCode = s.errCode := rfl
@[simp] theorem State.clearScratch_out : s.clearScratch.out = s.out := rfl
@[simp] theorem State.clearScratch_log : s.clearScratch.log = s.log := rfl
@[simp] theorem State.clearScratch_source : s.clearScratch.source = s.source := rfl
@[simp] theorem State.clearScratch_handlerAnswers : s.clearScratch.handlerAnswers = s.handlerAnswers := rfl
@[simp] theorem State.clearScratch_resetReq : s.clearScratch.resetReq = s.resetReq := rfl
@[simp] theorem State.clearScratch_calls : s.clearScratch.calls = s.calls := rfl
@[simp] theorem State.clearScratch_ret : s.clearScratch.ret = s.ret := rfl
@[simp] theorem State.clearScratch_cfg : s.clearScratch.cfg = s.cfg := rfl

/-! `State.logAppend` -/

@[simp] theorem State.logAppend_st (e : LogEntry) : (s.logAppend e).st = s.st := rfl
@[simp] theorem State.logAppend_rem (e : LogEntry) : (s.logAppend e).rem = s.rem := rfl
@[simp] theorem State.logAppend_buf (e : LogEntry) : (s.logAppend e).buf = s.buf := rfl
@[simp] theorem State.logAppend_cat (e : LogEntry) : (s.logAppend e).cat = s.cat := rfl
@[simp] theorem State.logAppend_a (e : LogEntry) : (s.logAppend e).a = s.a := rfl
@[simp] theorem State.logAppend_b (e : LogEntry) : (s.logAppend e).b = s.b := rfl
@[simp] theorem State.logAppend_off (e : LogEntry) : (s.logAppend e).off = s.off := rfl
@[simp] theorem State.logAppend_recs (e : LogEntry) : (s.logAppend e).recs = s.recs := rfl
@[simp] theorem State.logAppend_rxq (e : LogEntry) : (s.logAppend e).rxq = s.rxq := rfl
@[simp] theorem State.logAppend_frameOk (e : LogEntry) : (s.logAppend e).frameOk = s.frameOk := rfl
@[simp] theorem State.logAppend_errCode (e : LogEntry) : (s.logAppend e).errCode = s.errCode := rfl
@[simp] theorem State.logAppend_out (e : LogEntry) : (s.logAppend e).out = s.out := rfl
@[simp] theorem State.logAppend_log (e : LogEntry) : (s.logAppend e).log = s.log ++ [e] := rfl
@[simp] theorem State.logAppend_source (e : LogEntry) : (s.logAppend e).source = s.source := rfl
@[simp] theorem State.logAppend_handlerAnswers (e : LogEntry) : (s.logAppend e).handlerAnswers = s.handlerAnswers := rfl
@[simp] theorem State.logAppend_resetReq (e : LogEntry) : (s.logAppend e).resetReq = s.resetReq := rfl
@[simp] theorem State.logAppend_calls (e : LogEntry) : (s.logAppend e).calls = s.calls := rfl
@[simp] theorem State.logAppend_ret (e : LogEntry) : (s.logAppend e).ret = s.ret := rfl
@[simp] theorem State.logAppend_cfg (e : LogEntry) : (s.logAppend e).cfg = s.cfg := rfl

/-! `State.outAppend` -/

@[simp] theorem State.outAppend_st (d : Delivery) : (s.outAppend d).st = s.st := rfl
@[simp] theorem State.outAppend_rem (d : Delivery) : (s.outAppend d).rem = s.rem := rfl
@[simp] theorem State.outAppend_buf (d : Delivery) : (s.outAppend d).buf = s.buf := rfl
@[simp] theorem State.outAppend_cat (d : Delivery) : (s.outAppend d).cat = s.cat := rfl
@[simp] theorem State.outAppend_a (d : Delivery) : (s.outAppend d).a = s.a := rfl
@[simp] theorem State.outAppend_b (d : Delivery) : (s.outAppend d).b = s.b := rfl
@[simp] theorem State.outAppend_off (d : Delivery) : (s.outAppend d).off = s.off := rfl
@[simp] theorem State.outAppend_recs (d : Delivery) : (s.outAppend d).recs = s.recs := rfl
@[simp] theorem State.outAppend_rxq (d : Delivery) : (s.outAppend d).rxq = s.rxq := rfl
@[simp] theorem State.outAppend_frameOk (d : Delivery) : (s.outAppend d).frameOk = s.frameOk := rfl
@[simp] theorem State.outAppend_errCode (d : Delivery) : (s.outAppend d).errCode = s.errCode := rfl
@[simp] theorem State.outAppend_out (d : Delivery) : (s.outAppend d).out = s.out ++ [d] := rfl
@[simp] theorem State.outAppend_log (d : Delivery) : (s.outAppend d).log = s.log := rfl
@[simp] theorem State.outAppend_source (d : Delivery) : (s.outAppend d).source = s.source := rfl
@[simp] theorem State.outAppend_handlerAnswers (d : Delivery) : (s.outAppend d).handlerAnswers = s.handlerAnswers := rfl
@[simp] theorem State.outAppend_resetReq (d : Delivery) : (s.outAppend d).resetReq = s.resetReq := rfl
@[simp] theorem State.outAppend_calls (d : Delivery) : (s.outAppend d).calls = s.calls := rfl
@[simp] theorem State.outAppend_ret (d : Delivery) : (s.outAppend d).ret = s.ret := rfl
@[simp] theorem State.outAppend_cfg (d : Delivery) : (s.outAppend d).cfg = s.cfg := rfl

/-! `State.resume` -/

@[simp] theorem State.resume_st : s.resume.st = .awaitSync0 := rfl
@[simp] theorem State.resume_rem : s.resume.rem = s.rem := rfl
@[simp] theorem State.resume_buf : s.resume.buf = [] := rfl
@[simp] theorem State.resume_cat : s.resume.cat = s.cat := rfl
@[simp] theorem State.resume_a : s.resume.a = 0 := rfl
@[simp] theorem State.resume_b : s.resume.b = 0 := rfl
@[simp] theorem State.resume_off : s.resume.off = 0 := rfl
@[simp] theorem State.resume_recs : s.resume.recs = [] := rfl
@[simp] theorem State.resume_rxq : s.resume.rxq = s.rxq := rfl
@[simp] theorem State.resume_frameOk : s.resume.frameOk = s.frameOk := rfl
@[simp] theorem State.resume_errCode : s.resume.errCode = s.errCode := rfl
@[simp] theorem State.resume_out : s.resume.out = s.out := rfl
@[simp] theorem State.resume_log : s.resume.log = s.log := rfl
@[simp] theorem State.resume_source : s.resume.source = s.source := rfl
@[simp] theorem State.resume_handlerAnswers : s.resume.handlerAnswers = s.handlerAnswers := rfl
@[simp] theorem State.resume_resetReq : s.resume.resetReq = s.resetReq := rfl
@[simp] theorem State.resume_calls : s.resume.calls = s.calls := rfl
@[simp] theorem State.resume_ret : s.resume.ret = s.ret := rfl
@[simp] theorem State.resume_cfg : s.resume.cfg = s.cfg := rfl

/-! Reset -/

@[simp] theorem State.reset_st : State.reset.st = .awaitSync0 := rfl
@[simp] theorem State.reset_buf : State.reset.buf = [] := rfl
@[simp] theorem State.reset_rxq : State.reset.rxq = [] := rfl
@[simp] theorem State.reset_cfg : State.reset.cfg = Config.params := rfl
@[simp] theorem State.blockReset_st : s.blockReset.st = .awaitSync0 := rfl
@[simp] theorem State.blockReset_buf : s.blockReset.buf = [] := rfl
@[simp] theorem State.blockReset_rxq : s.blockReset.rxq = [] := rfl
@[simp] theorem State.blockReset_out : s.blockReset.out = [] := rfl
@[simp] theorem State.blockReset_log : s.blockReset.log = [] := rfl
@[simp] theorem State.blockReset_source : s.blockReset.source = s.source := rfl
@[simp] theorem State.blockReset_resetReq : s.blockReset.resetReq = false := rfl
@[simp] theorem State.blockReset_frameOk : s.blockReset.frameOk = false := rfl
@[simp] theorem State.blockReset_errCode : s.blockReset.errCode = 0 := rfl
@[simp] theorem State.blockReset_cfg : s.blockReset.cfg = s.cfg := rfl

end Sys2Proof.Machine
end

