-- ==== Sys2Proof/Laws/Ops.lean ====
section
/-! SUPPORT. One lemma per shared operation that says once everything it can do; later proofs cite these and do not
unfold the operations. -/

namespace Sys2Proof.Machine

/-! ### Outcomes -/

@[simp] theorem andThen_next (s : State) (k : State → Result) : andThen (.next s) k = k s := rfl
@[simp] theorem andThen_fault (f : Fault) (k : State → Result) : andThen (.fault f) k = .fault f := rfl
@[simp] theorem andThen_refused (r : Refusal) (k : State → Result) : andThen (.refused r) k = .refused r := rfl

theorem andThen_next_iff (o : Result) (k : State → Result) (t : State) :
    andThen o k = .next t ↔ ∃ s, o = .next s ∧ k s = .next t := by
  cases o <;> simp

theorem andThen_assoc (o : Result) (k l : State → Result) :
    andThen (andThen o k) l = andThen o fun s => andThen (k s) l := by
  cases o <;> rfl

theorem whenSelected_pos {c : Bool} (h : c = true) (o : Result) : whenSelected c o = o := by simp [whenSelected, h]

theorem whenSelected_next_iff (c : Bool) (o : Result) (t : State) :
    whenSelected c o = .next t ↔ c = true ∧ o = .next t := by
  cases c <;> simp [whenSelected]

/-! ### The frame buffer -/

theorem readBuf_bufAppend_of_lt (s : State) (v : Byte) {i : Nat} (h : i < s.buf.length) :
    (s.bufAppend v).readBuf i = s.readBuf i := by
  simp [State.readBuf, List.getElem?_append_left h]

@[simp] theorem readBuf_bufAppend_new (s : State) (v : Byte) : (s.bufAppend v).readBuf s.buf.length = some v := by
  simp [State.readBuf]

@[simp] theorem readBuf_bufClear (s : State) (i : Nat) : s.bufClear.readBuf i = none := by
  simp [State.readBuf]

/-- The two writes of the frame buffer keep its form: an append below the capacity, a clear always. -/
theorem bufAppend_wf (s : State) (v : Byte) (h : s.buf.length < Config.bufCap) : Memory.wf (s.bufAppend v).buf := by
  simp only [Memory.wf, State.bufAppend_buf, List.length_append, List.length_singleton]
  exact h

theorem bufClear_wf (s : State) : Memory.wf s.bufClear.buf := by simp [Memory.wf]

theorem reset_buf_wf : Memory.wf State.reset.buf := by simp [Memory.wf]

/-! ### The handler and completion -/

theorem invokeHandler_returns (d : Delivery) (s : State) (h : s.HandlerReturns) :
    invokeHandler d s = .next { s with out := s.out ++ [d], handlerAnswers := s.handlerAnswers.tail } := by
  obtain ⟨st, rem, buf, cat, a, b, off, recs, rxq, ok, ec, out, log, src, ha, rr, calls, ret, cfg⟩ := s
  match ha, h with
  | [], _ => rfl
  | .returns :: _, _ => rfl
  | .never :: _, h => exact absurd rfl h

theorem invokeHandler_never (d : Delivery) (s : State) (h : s.handlerAnswers.head? = some .never) :
    invokeHandler d s = .fault .handlerNeverReturns := by
  obtain ⟨st, rem, buf, cat, a, b, off, recs, rxq, ok, ec, out, log, src, ha, rr, calls, ret, cfg⟩ := s
  match ha, h with
  | .never :: _, _ => rfl

theorem complete_ok (s : State) (f : RawFrame) (hd : frameDecode s.buf = .ok f) (h : s.HandlerReturns) :
    complete s = .next
      { s with
        out := s.out ++ [deliver s.cfg.catalog f], handlerAnswers := s.handlerAnswers.tail, buf := [],
        st := .awaitSync0, a := 0, b := 0, off := 0, recs := [], frameOk := true, errCode := 0 } := by
  simp only [complete, hd, invokeHandler_returns _ _ h, andThen_next]; rfl

theorem complete_err (s : State) (e : FrameError) (hd : frameDecode s.buf = .err e) :
    complete s = .next
      { s with
        log := s.log ++ [.frameError e], buf := [], st := .awaitSync0, a := 0, b := 0, off := 0, recs := [],
        frameOk := false, errCode := e.kind.code } := by
  simp only [complete, hd]; rfl

theorem complete_never (s : State) (f : RawFrame) (hd : frameDecode s.buf = .ok f)
    (h : s.handlerAnswers.head? = some .never) : complete s = .fault .handlerNeverReturns := by
  simp only [complete, hd, invokeHandler_never _ _ h, andThen_fault]

/-- Everything COMPLETE can do. -/
theorem complete_cases (s : State) :
    (∃ f, frameDecode s.buf = .ok f ∧ s.HandlerReturns ∧ complete s = .next
      { s with
        out := s.out ++ [deliver s.cfg.catalog f], handlerAnswers := s.handlerAnswers.tail, buf := [],
        st := .awaitSync0, a := 0, b := 0, off := 0, recs := [], frameOk := true, errCode := 0 })
    ∨ (∃ e, frameDecode s.buf = .err e ∧ complete s = .next
      { s with
        log := s.log ++ [.frameError e], buf := [], st := .awaitSync0, a := 0, b := 0, off := 0, recs := [],
        frameOk := false, errCode := e.kind.code })
    ∨ (s.handlerAnswers.head? = some .never ∧ complete s = .fault .handlerNeverReturns) := by
  cases hd : frameDecode s.buf with
  | err e => exact .inr (.inl ⟨e, rfl, complete_err s e hd⟩)
  | ok f =>
    by_cases h : s.HandlerReturns
    · exact .inl ⟨f, rfl, h, complete_ok s f hd h⟩
    · have h' : s.handlerAnswers.head? = some .never := not_not.1 h
      exact .inr (.inr ⟨h', complete_never s f hd h'⟩)

/-! ### Consuming bytes -/

theorem consumeByte_awaitSync0 (v : Byte) (s : State) (h : s.st = .awaitSync0) :
    consumeByte v s = .next
      (if v = Config.sync0 then { s with buf := s.buf ++ [v], st := .awaitSync1 } else { s with buf := [] }) := by
  obtain ⟨st, rem, buf, cat, a, b, off, recs, rxq, ok, ec, out, log, src, ha, rr, calls, ret, cfg⟩ := s
  subst h
  by_cases hv : v = Config.sync0
  · subst hv; rfl
  · simp [consumeByte, execSync0Miss, whenSelected, hv, State.bufAppend, State.bufClear, State.setSt]

theorem consumeByte_awaitSync1 (v : Byte) (s : State) (h : s.st = .awaitSync1) :
    consumeByte v s = .next
      (if v = Config.sync1 then { s with buf := s.buf ++ [v], st := .awaitDescriptor }
        else { s with buf := [], st := .awaitSync0 }) := by
  obtain ⟨st, rem, buf, cat, a, b, off, recs, rxq, ok, ec, out, log, src, ha, rr, calls, ret, cfg⟩ := s
  subst h
  by_cases hv : v = Config.sync1
  · subst hv; rfl
  · simp [consumeByte, execSync1Miss, whenSelected, hv, State.bufAppend, State.bufClear, State.setSt]

theorem consumeByte_awaitDescriptor (v : Byte) (s : State) (h : s.st = .awaitDescriptor) :
    consumeByte v s = .next { s with buf := s.buf ++ [v], cat := v, st := .awaitLength } := by
  obtain ⟨st, rem, buf, cat, a, b, off, recs, rxq, ok, ec, out, log, src, ha, rr, calls, ret, cfg⟩ := s
  subst h; rfl

theorem consumeByte_awaitLength (v : Byte) (s : State) (h : s.st = .awaitLength) :
    consumeByte v s = .next { s with buf := s.buf ++ [v], rem := remOf v, st := .awaitBody } := by
  obtain ⟨st, rem, buf, cat, a, b, off, recs, rxq, ok, ec, out, log, src, ha, rr, calls, ret, cfg⟩ := s
  subst h; rfl

theorem consumeByte_body (v : Byte) (s : State) (h : s.st = .awaitBody) (hr : 2 ≤ s.rem) :
    consumeByte v s = .next { s with buf := s.buf ++ [v], rem := s.rem - 1 } := by
  have h0 : s.rem ≠ 0 := by omega
  have h1 : s.rem ≠ 1 := by omega
  simp [consumeByte, h, h0, h1, execBody, whenSelected, hr, State.bufAppend, State.setRem]

theorem consumeByte_bodyLast (v : Byte) (s : State) (h : s.st = .awaitBody) (hr : s.rem = 1) :
    consumeByte v s = complete { s with buf := s.buf ++ [v], rem := 0 } := by
  simp [consumeByte, h, hr, execBodyLast, whenSelected, State.bufAppend, State.setRem]

theorem consumeByte_zero (v : Byte) (s : State) (h : s.st = .awaitBody) (hr : s.rem = 0) :
    consumeByte v s = .fault .remainingZero := by
  simp [consumeByte, h, hr]

/-- The byte the decoder selects a row for is the byte the consume step takes (R63). -/
theorem exec_of_decodeStream (v : Byte) (s : State) (i : Instr) (h : decodeStream s.st s.rem v = .ok i) :
    exec i s = consumeByte v s := by
  cases hst : s.st <;> simp only [decodeStream, consumeByte, hst] at h ⊢
  · by_cases hv : v = Config.sync0
    · rw [if_pos hv] at h ⊢; cases h; rfl
    · rw [if_neg hv] at h ⊢; cases h; rfl
  · by_cases hv : v = Config.sync1
    · rw [if_pos hv] at h ⊢; cases h; rfl
    · rw [if_neg hv] at h ⊢; cases h; rfl
  · cases h; rfl
  · cases h; rfl
  · by_cases h0 : s.rem = 0
    · rw [if_pos h0] at h; cases h
    · rw [if_neg h0] at h ⊢
      by_cases h1 : s.rem = 1
      · rw [if_pos h1] at h ⊢; cases h; rfl
      · rw [if_neg h1] at h ⊢; cases h; rfl

@[simp] theorem consumeBytes_nil (s : State) : consumeBytes [] s = .next s := rfl

theorem consumeBytes_cons (v : Byte) (vs : List Byte) (s : State) :
    consumeBytes (v :: vs) s = andThen (consumeByte v s.clearStatus) (consumeBytes vs) := rfl

theorem consumeBytes_append (u w : List Byte) (s : State) :
    consumeBytes (u ++ w) s = andThen (consumeBytes u s) (consumeBytes w) := by
  induction u generalizing s with
  | nil => rfl
  | cons v u ih =>
    rw [List.cons_append, consumeBytes_cons, consumeBytes_cons, andThen_assoc]
    congr 1; funext t; exact ih t

/-! ### The step -/

/-- A consume step: with a byte waiting and no reset asserted, the oldest byte is popped and consumed (R63). -/
theorem step_consume (s : State) (v : Byte) (rest : List Byte) (hr : s.resetReq = false) (hq : s.rxq = v :: rest) :
    step s = consumeByte v ({ s with rxq := rest } : State).clearStatus := by
  obtain ⟨st, rem, buf, cat, a, b, off, recs, rxq, ok, ec, out, log, src, ha, rr, calls, ret, cfg⟩ := s
  simp only at hr hq
  subst hr hq
  cases h : decodeStream st rem v with
  | ok i =>
    rw [← exec_of_decodeStream v _ i (by simpa using h)]
    simp [step, fetch, fetchByte, decode, h]
    rfl
  | err e =>
    have hz : st = .awaitBody ∧ rem = 0 := by
      unfold decodeStream at h
      split at h
      · split at h <;> cases h
      · split at h <;> cases h
      · cases h
      · cases h
      · split at h
        · exact ⟨rfl, ‹_›⟩
        · split at h <;> cases h
    rw [consumeByte_zero v _ (by simpa using hz.1) (by simpa using hz.2)]
    simp [step, fetch, fetchByte, decode, h]

/-- A direct call (assumption log 5). -/
theorem step_call (s : State) (i : Instr) (rest : List Instr) (hr : s.resetReq = false) (hq : s.rxq = [])
    (hc : s.calls = i :: rest) :
    step s = exec i ({ s with calls := rest } : State).clearStatus := by
  obtain ⟨st, rem, buf, cat, a, b, off, recs, rxq, ok, ec, out, log, src, ha, rr, calls, ret, cfg⟩ := s
  simp only at hr hq hc
  subst hr hq hc
  simp [step, fetch, fetchCall]
  rfl

/-- A read (R75). -/
theorem step_read (s : State) (hr : s.resetReq = false) (hq : s.rxq = []) (hc : s.calls = []) :
    step s = exec (decodeAnswer (nextAnswer s.cfg.rxChunk s.source).1)
      ({ s with source := (nextAnswer s.cfg.rxChunk s.source).2 } : State).clearStatus := by
  obtain ⟨st, rem, buf, cat, a, b, off, recs, rxq, ok, ec, out, log, src, ha, rr, calls, ret, cfg⟩ := s
  simp only at hr hq hc
  subst hr hq hc
  rfl

theorem step_reset (s : State) (hr : s.resetReq = true) : step s = .next s.blockReset := by
  simp [step, hr]

/-- Everything that can run next. -/
theorem step_cases (s t : State) (h : step s = .next t) :
    (s.resetReq = true ∧ t = s.blockReset)
    ∨ (s.resetReq = false ∧ ∃ v rest, s.rxq = v :: rest
        ∧ consumeByte v ({ s with rxq := rest } : State).clearStatus = .next t)
    ∨ (s.resetReq = false ∧ s.rxq = [] ∧ ∃ i rest, s.calls = i :: rest
        ∧ exec i ({ s with calls := rest } : State).clearStatus = .next t)
    ∨ (s.resetReq = false ∧ s.rxq = [] ∧ s.calls = []
        ∧ exec (decodeAnswer (nextAnswer s.cfg.rxChunk s.source).1)
          ({ s with source := (nextAnswer s.cfg.rxChunk s.source).2 } : State).clearStatus = .next t) := by
  rcases Bool.eq_false_or_eq_true s.resetReq with hr | hr
  · rw [step_reset s hr] at h; cases h; exact .inl ⟨hr, rfl⟩
  obtain hq | ⟨v, rest, hq⟩ : s.rxq = [] ∨ ∃ v rest, s.rxq = v :: rest := by cases s.rxq <;> simp
  · obtain hc | ⟨i, rest, hc⟩ : s.calls = [] ∨ ∃ i rest, s.calls = i :: rest := by cases s.calls <;> simp
    · rw [step_read s hr hq hc] at h; exact .inr (.inr (.inr ⟨hr, hq, hc, h⟩))
    · rw [step_call s i rest hr hq hc] at h
      exact .inr (.inr (.inl ⟨hr, hq, i, rest, hc, h⟩))
  · rw [step_consume s v rest hr hq] at h
    exact .inr (.inl ⟨hr, v, rest, hq, h⟩)

/-! ### Runs -/

@[simp] theorem run_zero (s : State) : run 0 s = .next s := rfl

/-- One step of any machine of the host's interface, then the rest of the run. -/
theorem core_run_succ (M : Host.Core) (k : Nat) (s : M.State) :
    (∀ t, M.step s = .next t → M.run (k + 1) s = M.run k t)
    ∧ (∀ f, M.step s = .fault f → M.run (k + 1) s = .fault f)
    ∧ (∀ r, M.step s = .refused r → M.run (k + 1) s = .refused r) := by
  refine ⟨?_, ?_, ?_⟩ <;> intro x h <;> simp [Host.Core.run, h]

theorem run_succ (k : Nat) (s : State) : run (k + 1) s = andThen (step s) (run k) := by
  obtain ⟨h1, h2, h3⟩ := core_run_succ core k s
  cases h : step s with
  | next t => exact h1 t h
  | fault f => exact h2 f h
  | refused r => exact h3 r h

theorem run_add (j k : Nat) (s : State) : run (j + k) s = andThen (run j s) (run k) := by
  induction j generalizing s with
  | zero => simp
  | succ j ih =>
    rw [Nat.succ_add, run_succ, run_succ, andThen_assoc]
    congr 1; funext t; exact ih t

/-- What a read delivers and what it leaves are together what the source had (R22, R32). -/
theorem nextAnswer_stream (chunk : Nat) (src : List SourceAnswer) :
    streamOf [(nextAnswer chunk src).1] ++ streamOf (nextAnswer chunk src).2 = streamOf src := by
  match src with
  | [] => rfl
  | .timeout :: _ => rfl
  | .ioError :: _ => rfl
  | .bytes bs :: rest =>
    simp only [nextAnswer]
    by_cases h : bs.length ≤ chunk
    · simp [h, streamOf, List.take_of_length_le h]
    · simp [h, streamOf, ← List.append_assoc, List.take_append_drop]

/-- A read never delivers more than `RX_CHUNK` bytes (R22). -/
theorem nextAnswer_bytes_length (chunk : Nat) (src : List SourceAnswer) (bs : List Byte)
    (h : (nextAnswer chunk src).1 = .bytes bs) : bs.length ≤ chunk := by
  match src with
  | [] => simp [nextAnswer] at h
  | .timeout :: _ => simp [nextAnswer] at h
  | .ioError :: _ => simp [nextAnswer] at h
  | .bytes ds :: rest =>
    simp only [nextAnswer, SourceAnswer.bytes.injEq] at h
    subst h; simp

end Sys2Proof.Machine
end

