-- ==== Sys2Proof/Laws/Instances.lean ====
section
/-! SUPPORT. What a step of one instance does to it and to the others; where instances start. -/

namespace Sys2Proof.Machine

@[simp] theorem Instances.interleave_nil (m : Instances) : Instances.interleave [] m = m := rfl

@[simp] theorem Instances.interleave_cons (k : Nat) (schedule : List Nat) (m : Instances) :
    Instances.interleave (k :: schedule) m = Instances.interleave schedule (Instances.stepAt k m) := rfl

/-- The instance that takes the step. -/
@[simp] theorem Instances.stepAt_self (k : Nat) (m : Instances) :
    (Instances.stepAt k m)[k]? = m[k]?.map fun o => andThen o step := by
  simp [Instances.stepAt]

/-- Every other instance, whatever the step does (R45). -/
@[simp] theorem Instances.stepAt_other {j k : Nat} (m : Instances) (h : j ≠ k) :
    (Instances.stepAt k m)[j]? = m[j]? := by
  simp [Instances.stepAt, h.symm]

/-- No step starts or removes an instance. -/
@[simp] theorem Instances.stepAt_length (k : Nat) (m : Instances) : (Instances.stepAt k m).length = m.length := by
  simp [Instances.stepAt]

/-- From reset every instance holds the catalog of `Config.params` (R139). -/
theorem Instances.reset_shareCatalog (n : Nat) : (Instances.reset n).ShareCatalog Config.params.catalog := by
  intro s hs
  obtain ⟨-, h⟩ := List.mem_replicate.1 hs
  cases h; rfl

end Sys2Proof.Machine
end

