-- ==== Sys2Proof/Laws/PerInstr.lean ====
section
/-! SUPPORT. The family WireLength: how many bytes an instruction has where it is read (spec/30_encoding.md R46, R48,
R50, R51, R56). -/

namespace Sys2Proof.Laws.WireLength

/-- The number of bytes of an instruction that the length fields of its own operands give. -/
def bytesOf : Sys2Proof.Instr → Nat
  | .frame f => f.declaredLength.toNat + 5
  | .record r => r.length.toNat
  | .ck _ _ => 2
  | _ => 1

/-- A well-formed instruction that has bytes has as many as its operands declare. -/
def Statement (i : Sys2Proof.Instr) : Prop :=
  ∀ (p : Sys2Proof.Place) (w : List Sys2Proof.Byte), i.wellFormed = true → Sys2Proof.encode i = some (p, w) →
    w.length = bytesOf i

/-- An instruction without bits (spec/opcode_table.json, mask "n/a"). -/
theorem of_no_bits {i : Sys2Proof.Instr} (h : Sys2Proof.encode i = none) : Statement i := by
  intro p w _ he; rw [h] at he; cases he

theorem sync0Hit : Statement .sync0Hit := by intro p w _ he; cases he; rfl
theorem sync0Miss (v : Sys2Proof.Byte) : Statement (.sync0Miss v) := by intro p w _ he; cases he; rfl
theorem sync1Hit : Statement .sync1Hit := by intro p w _ he; cases he; rfl
theorem sync1Miss (v : Sys2Proof.Byte) : Statement (.sync1Miss v) := by intro p w _ he; cases he; rfl
theorem desc (category : Sys2Proof.Byte) : Statement (.desc category) := by intro p w _ he; cases he; rfl
theorem len (L : Sys2Proof.Byte) : Statement (.len L) := by intro p w _ he; cases he; rfl
theorem body (v : Sys2Proof.Byte) : Statement (.body v) := by intro p w _ he; cases he; rfl
theorem bodyLast (v : Sys2Proof.Byte) : Statement (.bodyLast v) := by intro p w _ he; cases he; rfl
theorem read (bs : List Sys2Proof.Byte) : Statement (.read bs) := of_no_bits rfl
theorem timeout : Statement .timeout := of_no_bits rfl
theorem ioError : Statement .ioError := of_no_bits rfl
theorem frame (f : Sys2Proof.RawFrame) : Statement (.frame f) := by
  intro p w hw he
  simp only [encode, Option.some.injEq, Prod.mk.injEq] at he
  obtain ⟨_, rfl⟩ := he
  simp only [Instr.wellFormed, RawFrame.wellFormed, RawRecord.wellFormed, Bool.and_eq_true, decide_eq_true_eq,
    List.all_eq_true] at hw
  have ht : ∀ r ∈ f.records, r.Tiled := fun r hr => (hw.1.1.2 r hr).1
  have hl := recordsBytes_length ht
  have hd := hw.1.2
  simp only [frameEncode, RawFrame.coveredBytes, Checksum.bytes, List.length_append, List.length_cons, List.length_nil,
    bytesOf]
  omega
theorem record (r : Sys2Proof.RawRecord) : Statement (.record r) := by
  intro p w hw he
  simp only [encode, Option.some.injEq, Prod.mk.injEq] at he
  obtain ⟨_, rfl⟩ := he
  simp only [Instr.wellFormed, RawRecord.wellFormed, Bool.and_eq_true, decide_eq_true_eq] at hw
  exact RawRecord.bytes_length hw.1
theorem ck (msb : Sys2Proof.Byte) (lsb : Sys2Proof.Byte) : Statement (.ck msb lsb) := by intro p w _ he; cases he; rfl
theorem cat80 : Statement .cat80 := by intro p w _ he; cases he; rfl
theorem cat81 : Statement .cat81 := by intro p w _ he; cases he; rfl
theorem cat82 : Statement .cat82 := by intro p w _ he; cases he; rfl
theorem cat01 : Statement .cat01 := by intro p w _ he; cases he; rfl
theorem cat0C : Statement .cat0C := by intro p w _ he; cases he; rfl
theorem cat0D : Statement .cat0D := by intro p w _ he; cases he; rfl
theorem cat7F : Statement .cat7F := by intro p w _ he; cases he; rfl
theorem catOther (category : Sys2Proof.Byte) : Statement (.catOther category) := by intro p w _ he; cases he; rfl
theorem csum (bytes : List Sys2Proof.Byte) : Statement (.csum bytes) := of_no_bits rfl
theorem csumStep (v : Sys2Proof.Byte) : Statement (.csumStep v) := of_no_bits rfl
theorem csumCheck (bytes : List Sys2Proof.Byte) : Statement (.csumCheck bytes) := of_no_bits rfl
theorem frameDecode (bytes : List Sys2Proof.Byte) : Statement (.frameDecode bytes) := of_no_bits rfl
theorem recParse (payload : List Sys2Proof.Byte) : Statement (.recParse payload) := of_no_bits rfl
theorem frameEncode (f : Sys2Proof.RawFrame) : Statement (.frameEncode f) := of_no_bits rfl
theorem offsets (layout : List Sys2Proof.Subfield) : Statement (.offsets layout) := of_no_bits rfl
theorem fieldDecode (rt : Sys2Proof.RecordType) (r : Sys2Proof.RawRecord) : Statement (.fieldDecode rt r) := of_no_bits rfl
theorem value (kind : Sys2Proof.Kind) (raw : List Sys2Proof.Byte) : Statement (.value kind raw) := of_no_bits rfl
theorem fieldEncode (t : Sys2Proof.TypedRecord) : Statement (.fieldEncode t) := of_no_bits rfl
theorem dispatch (f : Sys2Proof.RawFrame) : Statement (.dispatch f) := of_no_bits rfl
theorem complete : Statement .complete := of_no_bits rfl
theorem handler (d : Sys2Proof.Delivery) : Statement (.handler d) := of_no_bits rfl

end Sys2Proof.Laws.WireLength
end

