-- ==== Sys2Proof/Laws/Stream.lean ====
section
/-! SUPPORT. Consume steps: what they leave alone, and the invariant they keep. -/

namespace Sys2Proof.Machine

/-- Everything a consume step leaves to the environment, and that it only appends to the traces (R31, R63). -/
theorem consumeByte_frame (v : Byte) (s t : State) (h : consumeByte v s = .next t) :
    (t.handlerAnswers <:+ s.handlerAnswers) ∧ t.calls = s.calls ∧ t.cfg = s.cfg ∧ t.source = s.source ∧ t.rxq = s.rxq
    ∧ t.resetReq = s.resetReq ∧
    s.out <+: t.out ∧ s.log <+: t.log := by
  cases hst : s.st
  · rw [consumeByte_awaitSync0 _ _ hst] at h; cases h; split <;> simp
  · rw [consumeByte_awaitSync1 _ _ hst] at h; cases h; split <;> simp
  · rw [consumeByte_awaitDescriptor _ _ hst] at h; cases h; simp
  · rw [consumeByte_awaitLength _ _ hst] at h; cases h; simp
  · by_cases h0 : s.rem = 0
    · rw [consumeByte_zero _ _ hst h0] at h; cases h
    · by_cases hr : s.rem = 1
      · rw [consumeByte_bodyLast _ _ hst hr] at h
        rcases complete_cases { s with buf := s.buf ++ [v], rem := 0 } with ⟨f, _, _, h'⟩ | ⟨e, _, h'⟩ | ⟨_, h'⟩ <;>
          rw [h'] at h <;> cases h
        · simp [List.tail_suffix]
        · simp
      · rw [consumeByte_body _ _ hst (by omega)] at h; cases h; simp

/-- A consume step neither reads nor writes `rxq` (the fetch has popped the byte: R63). -/
theorem consumeByte_setRxq (v : Byte) (s : State) (q : List Byte) : consumeByte v { s with rxq := q } =
    andThen (consumeByte v s) fun t => .next { t with rxq := q } := by
  have : ∀ x, s.st = x → consumeByte v { s with rxq := q } =
      andThen (consumeByte v s) fun t => .next { t with rxq := q } := by
    intro x hst
    cases x
    · rw [consumeByte_awaitSync0 _ s hst, consumeByte_awaitSync0 v { s with rxq := q } hst, andThen_next]; split <;> rfl
    · rw [consumeByte_awaitSync1 _ s hst, consumeByte_awaitSync1 v { s with rxq := q } hst, andThen_next]; split <;> rfl
    · rw [consumeByte_awaitDescriptor _ s hst, consumeByte_awaitDescriptor v { s with rxq := q } hst]; rfl
    · rw [consumeByte_awaitLength _ s hst, consumeByte_awaitLength v { s with rxq := q } hst]; rfl
    · by_cases h0 : s.rem = 0
      · rw [consumeByte_zero _ s hst h0, consumeByte_zero v { s with rxq := q } hst h0]; rfl
      · by_cases h1 : s.rem = 1
        · rw [consumeByte_bodyLast _ s hst h1, consumeByte_bodyLast v { s with rxq := q } hst h1]
          rcases complete_cases { s with buf := s.buf ++ [v], rem := 0 } with ⟨f, hd, hh, h'⟩ | ⟨e, hd, h'⟩ | ⟨hh, h'⟩
          · rw [h', complete_ok { s with rxq := q, buf := s.buf ++ [v], rem := 0 } f hd hh]; rfl
          · rw [h', complete_err { s with rxq := q, buf := s.buf ++ [v], rem := 0 } e hd]; rfl
          · rw [h']
            cases hd : frameDecode (s.buf ++ [v]) with
            | ok f => rw [complete_never { s with rxq := q, buf := s.buf ++ [v], rem := 0 } f hd hh]; rfl
            | err e => rw [complete_err _ e hd] at h'; cases h'
        · rw [consumeByte_body _ s hst (by omega), consumeByte_body v { s with rxq := q } hst (show 2 ≤ s.rem by omega)]; rfl
  exact this _ rfl

/-- Body bytes before the last are collected (R70). -/
theorem consumeBytes_body (w : List Byte) : ∀ s : State, s.st = .awaitBody → w.length < s.rem → w ≠ [] →
    consumeBytes w s = .next {s with buf := s.buf ++ w, rem := s.rem - w.length, frameOk := false, errCode := 0} := by
  induction w with
  | nil => intro s _ _ h; exact absurd rfl h
  | cons v w ih =>
    intro s h hl _
    simp only [List.length_cons] at hl
    rw [consumeBytes_cons, consumeByte_body _ _ (by simpa using h) (by simp; omega), andThen_next]
    by_cases hw : w = []
    · subst hw; simp [State.clearStatus, State.setStatus]
    · rw [ih _ (by simpa using h) (by simp; omega) hw]
      simp [Nat.sub_sub, Nat.add_comm, State.clearStatus, State.setStatus]

theorem frameError_code_le (e : FrameError) : e.kind.code ≤ 2 := by cases e <;> simp [FrameError.kind, ErrorKind.code]

theorem complete_inv (s t : State) (hq : s.rxq.length ≤ s.cfg.rxChunk) (h1 : 1 ≤ s.cfg.rxChunk)
    (hc : s.cfg.catalog.WellFormed)
   (h : complete s = .next t) : t.Inv := by
  rcases complete_cases s with ⟨f, _, _, h'⟩ | ⟨e, _, h'⟩ | ⟨_, h'⟩ <;> rw [h'] at h <;> cases h
  · exact ⟨rfl, ⟨by simp, by simp⟩, hq, h1, hc⟩
  · exact ⟨rfl, ⟨frameError_code_le e, by simp⟩, hq, h1, hc⟩

theorem clearStatus_inv (s : State) (h : s.Inv) : s.clearStatus.Inv := ⟨h.shape, ⟨by simp,
    by simp⟩, h.queue, h.chunk, h.catalog⟩

/-- A consume step from a state of the invariant keeps it, and stops only for the handler (R25, R131). -/
theorem consumeByte_inv (v : Byte) (s : State) (hi : s.Inv) :
    (∀ t, consumeByte v s = .next t → t.Inv) ∧ ((∃ t, consumeByte v s = .next t)
        ∨ (consumeByte v s = .fault .handlerNeverReturns ∧ s.handlerAnswers.head? = some .never)) := by
  have hsh := hi.shape
  unfold State.BufShape at hsh
  split at hsh <;> rename_i hst
  · rw [consumeByte_awaitSync0 _ _ hst]
    refine ⟨?_, .inl ⟨_, rfl⟩⟩
    intro t h; cases h
    split
    · rename_i hv; exact ⟨by show s.buf ++ [v] = _; simp [hsh, hv], hi.status, hi.queue, hi.chunk, hi.catalog⟩
    · exact ⟨by unfold State.BufShape; simp only [hst], hi.status, hi.queue, hi.chunk, hi.catalog⟩
  · rw [consumeByte_awaitSync1 _ _ hst]
    refine ⟨?_, .inl ⟨_, rfl⟩⟩
    intro t h; cases h
    split
    · rename_i hv; exact ⟨by show s.buf ++ [v] = _; simp [hsh, hv], hi.status, hi.queue, hi.chunk, hi.catalog⟩
    · exact ⟨rfl, hi.status, hi.queue, hi.chunk, hi.catalog⟩
  · rw [consumeByte_awaitDescriptor _ _ hst]
    refine ⟨?_, .inl ⟨_, rfl⟩⟩
    intro t h; cases h
    exact ⟨by show s.buf ++ [v] = _; simp [hsh], hi.status, hi.queue, hi.chunk, hi.catalog⟩
  · rw [consumeByte_awaitLength _ _ hst]
    refine ⟨?_, .inl ⟨_, rfl⟩⟩
    intro t h; cases h
    refine ⟨⟨v, [], by simp [hsh], by simp [remOf, Config.bodyExtra],
      by simp⟩, hi.status, hi.queue, hi.chunk, hi.catalog⟩
  · obtain ⟨L, rest, hb, h1, h2⟩ := hsh
    by_cases hr : s.rem = 1
    · rw [consumeByte_bodyLast _ _ hst hr]
      refine ⟨fun t h => complete_inv _ t ?_ ?_ ?_ h, ?_⟩
      · exact hi.queue
      · exact hi.chunk
      · exact hi.catalog
      · rcases complete_cases { s with buf := s.buf ++ [v], rem := 0 } with ⟨f, _, _, h'⟩ | ⟨e, _, h'⟩ | ⟨hn, h'⟩
        · exact .inl ⟨_, h'⟩
        · exact .inl ⟨_, h'⟩
        · exact .inr ⟨h', hn⟩
    · rw [consumeByte_body _ _ hst (by omega)]
      refine ⟨?_, .inl ⟨_, rfl⟩⟩
      intro t h; cases h
      refine ⟨?_, hi.status, hi.queue, hi.chunk, hi.catalog⟩
      unfold State.BufShape; simp only [hst]
      exact ⟨L, rest ++ [v], by simp [hb], by omega, by simp; omega⟩

/-- So do consume steps in a row. -/
theorem consumeBytes_inv (w : List Byte) : ∀ s : State, s.Inv →
    (∀ t, consumeBytes w s = .next t → t.Inv) ∧ ((∃ t, consumeBytes w s = .next t)
        ∨ (consumeBytes w s = .fault .handlerNeverReturns ∧ .never ∈ s.handlerAnswers)) := by
  induction w with
  | nil => intro s h; exact ⟨by intro t ht; cases ht; exact h, .inl ⟨s, rfl⟩⟩
  | cons v w ih =>
    intro s h
    obtain ⟨i1, i2⟩ := consumeByte_inv v _ (clearStatus_inv s h)
    rw [consumeBytes_cons]
    rcases i2 with ⟨u, hu⟩ | ⟨hf, hn⟩
    · rw [hu, andThen_next]
      obtain ⟨j1, j2⟩ := ih u (i1 u hu)
      refine ⟨j1, j2.imp id fun ⟨a, b⟩ => ⟨a, ?_⟩⟩
      exact (consumeByte_frame v _ u hu).1.subset b
    · rw [hf]
      constructor
      · intro t ht; cases ht
      · right; exact ⟨rfl, List.mem_of_mem_head? (by simpa using hn)⟩

/-- What an answer of the byte source leaves (R75 to R77). -/
def afterAnswer (s : State) : SourceAnswer → State
  | .bytes bs => { s with rxq := bs }
  | .timeout => s
  | .ioError => { s with log := s.log ++ [.ioError] }

theorem exec_answer (s : State) (a : SourceAnswer) (hq : s.rxq = []) (h : ∀ bs, a = .bytes bs →
    bs.length ≤ s.cfg.rxChunk) :
    exec (decodeAnswer a) s = .next (afterAnswer s a) := by
  match a with
  | .timeout => rfl
  | .ioError => rfl
  | .bytes [] => show Host.Outcome.next s = .next {s with rxq := []}; rw [← hq]
  | .bytes (v :: vs) =>
    have := h _ rfl
    simp only [decodeAnswer, exec, execRead]
    rw [if_neg (by simp), if_neg (by simp [hq]), if_neg (by omega)]; rfl

/-- A read always answers a next state (R75). -/
theorem step_read_next (s : State) (hr : s.resetReq = false) (hq : s.rxq = []) (hc : s.calls = []) :
  step s = .next (match (nextAnswer s.cfg.rxChunk s.source).1 with
    | .bytes bs => { s with source := (nextAnswer s.cfg.rxChunk s.source).2, frameOk := false, errCode := 0, rxq := bs }
    | .timeout => { s with source := (nextAnswer s.cfg.rxChunk s.source).2, frameOk := false, errCode := 0 }
    | .ioError => { s with source := (nextAnswer s.cfg.rxChunk s.source).2, frameOk := false, errCode := 0, log := s.log ++ [.ioError] }) := by
  rw [step_read s hr hq hc, exec_answer _ _ (by simpa using hq) (by intro bs hb; exact nextAnswer_bytes_length _ _ _ hb)]
  generalize (nextAnswer s.cfg.rxChunk s.source).1 = a
  cases a <;> rfl

end Sys2Proof.Machine
end

