-- ==== Sys2Proof/Laws/Units.lean ====
section
/-! SUPPORT. What the record parser and FRAME.DECODE answer, and the field codec's numbers and offsets. -/

namespace Sys2Proof

/-! ### The record parser and FRAME.DECODE -/

/-- A record takes at least two bytes of its payload (R94). -/
theorem payloadLength_ge : ∀ rs : List RawRecord, (∀ r ∈ rs, r.Tiled) → 2 * rs.length + 1 ≤ payloadLength rs := by
  intro rs
  induction rs with
  | nil => intro _; simp
  | cons r rs ih =>
    intro h; have := ih fun x hx => h x (by simp [hx]); have h2 := h r (by simp)
    simp only [RawRecord.Tiled] at h2; simp; omega

/-- Records packed in the declared payload: the scan takes them all and ends at `L` (R94, R98). -/
theorem recScan_packed (L : Byte) (rs : List RawRecord) (extra : List Byte) (ht : ∀ r ∈ rs, r.Tiled)
    (hL : L.toNat = payloadLength rs) :
    recScan (L :: recordsBytes rs ++ extra) = ⟨L.toNat, rs, none⟩ := by
  have hpos : 1 ≤ payloadLength rs := by simp [payloadLength]
  have hlen := recordsBytes_length ht
  unfold recScan
  simp only [List.cons_append]
  have b0 : byteAt (L :: (recordsBytes rs ++ extra)) 0 = L := by simp [byteAt]
  rw [b0, if_neg (by omega)]
  have hn : rs.length ≤ L.toNat - 1 := by
    have : ∀ rs : List RawRecord, (∀ r ∈ rs, r.Tiled) → rs.length + 1 ≤ payloadLength rs := by
      intro rs
      induction rs with
      | nil => intro _; simp
      | cons r rs ih =>
        intro h; have := ih fun x hx => h x (by simp [hx]); have h2 := h r (by simp)
        simp only [RawRecord.Tiled] at h2; simp; omega
    have := this rs ht; omega
  have hmin : min L.toNat (L :: (recordsBytes rs ++ extra)).length = L.toNat := by simp; omega
  rw [hmin]
  obtain ⟨k, hk⟩ : ∃ k, L.toNat = (k + 1) + rs.length := ⟨L.toNat - rs.length - 1, by omega⟩
  conv_lhs => arg 4; rw [hk]
  rw [recLoop_packed _ _ _ rs (k+1) 1 [] extra ht (by simp) (by omega) (by omega)]
  rw [recLoop_succ, if_neg (by omega)]
  simp; omega

/-- So the parse returns them (R94). -/
theorem recParse_packed (L : Byte) (rs : List RawRecord) (extra : List Byte) (ht : ∀ r ∈ rs, r.Tiled)
    (hL : L.toNat = payloadLength rs) :
    recParse (L :: recordsBytes rs ++ extra) = .ok rs := by
  simp only [recParse, recScan_packed L rs extra ht hL]

/-- The payload region is what stands between the header and the checksum (R93). -/
theorem payloadRegion_eq (s0 s1 c : Byte) (P : List Byte) (a b : Byte) :
    payloadRegion ([s0, s1, c] ++ P ++ [a, b]) = P := by
  simp [payloadRegion, slice, Config.hdrLen, Config.ckLen]

/-- A frame whose records tile its payload and whose checksum is right decodes to its fields (R89). -/
theorem frameDecode_packed {s0 s1 c L a b : Byte} {rs : List RawRecord} (ht : ∀ r ∈ rs, r.Tiled)
    (hL : L.toNat = payloadLength rs)
    (hc : (a, b) = csum ([s0, s1, c, L] ++ recordsBytes rs)) :
    frameDecode ([s0, s1, c, L] ++ recordsBytes rs ++ [a, b]) = .ok ⟨⟨s0, s1, c⟩, L, rs, ⟨a, b⟩⟩ := by
  unfold frameDecode
  have hp : payloadRegion ([s0, s1, c, L] ++ recordsBytes rs ++ [a, b]) = L :: recordsBytes rs ++ [] := by
    have := payloadRegion_eq s0 s1 c (L :: recordsBytes rs) a b
    simpa using this
  rw [if_neg (by simp [Config.minFrame]), csumCheck_pair, if_pos (by simp [hc]), hp, recParse_packed L rs [] ht hL]
  rw [trailer_pair]; simp [byteAt]

/-- What a parse without an error has found (R94, R99). -/
theorem recParse_sound (P : List Byte) (rs : List RawRecord) (h : recParse P = .ok rs) :
    (byteAt P 0).toNat = payloadLength rs ∧ (∀ r ∈ rs, r.Tiled) ∧ slice P 1 (payloadLength rs) = recordsBytes rs
        ∧ payloadLength rs ≤ P.length ∧ recScan P = ⟨(byteAt P 0).toNat, rs, none⟩:= by
  have hpos' : ∀ r : List RawRecord, 1 ≤ payloadLength r := by simp [payloadLength]
  unfold recParse at h
  split at h
  · cases h
  rename_i he
  cases h
  unfold recScan at he ⊢
  by_cases h0 : (byteAt P 0).toNat = 0
  · rw [if_pos h0] at he; cases he
  simp only [if_neg h0] at he ⊢
  have hP : P ≠ [] := by rintro rfl; simp [byteAt] at h0
  have hPl : 1 ≤ P.length := by cases P <;> simp_all
  obtain ⟨rs, h1, h2, h3, h4, h5, h6⟩ := recLoop_sound P (byteAt P 0).toNat
    (min (byteAt P 0).toNat P.length) (by omega) _ 1 [] (by omega) he
  rw [List.nil_append] at h1
  have hpos := hpos' rs
  have e : 1 + (payloadLength rs - 1) = payloadLength rs := by omega
  rw [e] at h3 h4 h5 h6
  have hle : payloadLength rs ≤ min (byteAt P 0).toNat P.length := by
    rcases h6 with rfl | h6
    · simp; omega
    · exact h6
  rw [h1]
  refine ⟨by omega, h2, h4, by omega, ?_⟩
  have heq : (byteAt P 0).toNat = payloadLength rs := by omega
  rcases hx : recLoop P (byteAt P 0).toNat (min (byteAt P 0).toNat P.length) (byteAt P 0).toNat 1 [] with ⟨o, r, er⟩
  rw [hx] at h1 h3 he
  simp only at h1 h3 he
  subst h1 h3 he
  simp [heq]

/-- What a successful decode has found (R89 to R93). -/
theorem frameDecode_ok (w : List Byte) (f : RawFrame) (h : frameDecode w = .ok f) :
    ∃ c x y, w = c ++ [x, y] ∧ 4 ≤ c.length ∧ (x, y) = csum c ∧ recParse (c.drop 3) = .ok f.records ∧
      f = ⟨⟨byteAt c 0, byteAt c 1, byteAt c 2⟩, byteAt c 3, f.records, ⟨x, y⟩⟩ := by
  unfold frameDecode at h
  split at h
  · cases h
  rename_i hl
  simp only [Config.minFrame] at hl
  split at h
  swap
  · cases h
  rename_i hc
  obtain ⟨u, x, y, rfl⟩ := exists_pair w (by omega)
  rw [csumCheck_pair, decide_eq_true_eq] at hc
  simp at hl
  have hp : payloadRegion (u ++ [x, y]) = u.drop 3 := by
    unfold payloadRegion slice Config.hdrLen Config.ckLen
    rw [List.drop_append_of_le_length (by omega)]
    simp
  rw [hp] at h
  split at h
  · cases h
  rename_i recs hr
  cases h
  refine ⟨u, x, y, rfl, by omega, hc, hr, ?_⟩
  rw [byteAt_append_left _ _ (by omega), byteAt_append_left _ _ (by omega), byteAt_append_left _ _ (by omega), trailer_pair]
  have : byteAt (u.drop 3) 0 = byteAt u 3 := by simp [byteAt]
  rw [this]

/-! ### Numbers, offsets, subfields -/

theorem be_append (u : List Byte) (v : Byte) : be (u ++ [v]) = 256 * be u + v.toNat := by simp [be]

/-- A big-endian number of `k` bytes is below `256^k` (R11, R111). -/
theorem be_lt (u : List Byte) : be u < 256 ^ u.length := by
  induction u using List.reverseRecOn with
  | nil => decide
  | append_singleton u v ih =>
    rw [be_append, List.length_append, List.length_singleton, Nat.pow_succ]; have := v.isLt; omega

/-- The sum of R11. -/
theorem be_sum (u : List Byte) : be u =
    ((List.range u.length).map fun i => (byteAt u i).toNat * 256 ^ (u.length - 1 - i)).sum := by
  induction u using List.reverseRecOn with
  | nil => rfl
  | append_singleton u v ih =>
    rw [be_append, ih, List.length_append, List.length_singleton, List.range_succ, List.map_append, List.sum_append]
    have e1 : byteAt (u ++ [v]) u.length = v := by simp [byteAt]
    have : ((List.range u.length).map fun i => (byteAt (u ++ [v]) i).toNat * 256 ^ (u.length + 1 - 1 - i)) =
        (List.range u.length).map fun i => 256 * ((byteAt u i).toNat * 256 ^ (u.length - 1 - i)) := by
      apply List.map_congr_left
      intro i hi
      have hi : i < u.length := by simpa using hi
      rw [byteAt_append_left _ _ hi, show u.length + 1 - 1 - i = (u.length - 1 - i) + 1 by omega, Nat.pow_succ]; ring
    rw [this, List.sum_map_mul_left]
    simp [e1]

theorem be_cons (v : Byte) (u : List Byte) : be (v :: u) = v.toNat * 256 ^ u.length + be u := by
  rw [be_sum (v :: u), be_sum u, List.length_cons, List.range_succ_eq_map]
  simp [byteAt, Function.comp_def]
  congr 1; apply List.map_congr_left; intro i hi; congr 2; omega

/-- Encoding the number of some bytes gives the bytes back (R113). -/
theorem beBytes_be (u : List Byte) : beBytes u.length (be u) = u := by
  suffices ∀ (u : List Byte) (m : Nat), beBytes u.length (m * 256 ^ u.length + be u) = u by simpa using this u 0
  intro u
  induction u with
  | nil => intro m; rfl
  | cons v u ih =>
    intro m
    rw [be_cons, List.length_cons, beBytes]
    have e : m * 256 ^ (u.length + 1) + (v.toNat * 256 ^ u.length + be u) =
        (m * 256 + v.toNat) * 256 ^ u.length + be u := by ring
    rw [e, ih]
    have hl := be_lt u
    have hd : ((m * 256 + v.toNat) * 256 ^ u.length + be u) / 256 ^ u.length = m * 256 + v.toNat := by
      generalize be u = z at hl ⊢
      have hp : 0 < 256 ^ u.length := by positivity
      generalize 256 ^ u.length = y at hl hp ⊢
      rw [Nat.mul_comm, Nat.mul_add_div hp, Nat.div_eq_of_lt hl, Nat.add_zero]
    rw [hd]
    congr 1
    apply BitVec.eq_of_toNat_eq; have := v.isLt; simp; omega

theorem beBytes_length (k n : Nat) : (beBytes k n).length = k := by induction k <;> simp [beBytes, *]

theorem offsetsFrom_length (l : List Subfield) : ∀ o, (offsetsFrom o l).length = l.length := by
  induction l with
  | nil => intro o; rfl
  | cons a l ih => intro o; simp [offsetsFrom, ih]

/-- A subfield of a layout ends within NEED (R109). -/
theorem offsetsFrom_bound (l : List Subfield) :
    ∀ o, ∀ p ∈ l.zip (offsetsFrom o l), p.2 + p.1.prim.size ≤ o + need l := by
  induction l with
  | nil => intro o p h; simp at h
  | cons a l ih =>
    intro o p h
    simp only [offsetsFrom, List.zip_cons_cons, List.mem_cons] at h
    simp only [need, List.map_cons, List.sum_cons] at ih ⊢
    rcases h with rfl | h
    · simp
    · have := ih _ p h; omega

/-- FIELD.DECODE on enough data (R110). -/
theorem decodeSubfields_ok (l : List Subfield) (d : List Byte) : ∀ o, o + need l ≤ d.length →
    decodeSubfields (l.zip (offsetsFrom o l)) d =
    .ok ((l.zip (offsetsFrom o l)).map fun p => valueOf p.1.prim.kind (slice d p.2 (p.2 + p.1.prim.size))) := by
  induction l with
  | nil => intro o _; rfl
  | cons a l ih =>
    intro o h
    simp only [need, List.map_cons, List.sum_cons] at h ih
    simp only [offsetsFrom, List.zip_cons_cons, decodeSubfields, List.map_cons]
    rw [if_neg (by omega), ih _ (by omega)]

/-- FIELD.DECODE on too few data (R110). -/
theorem decodeSubfields_err (l : List Subfield) (d : List Byte) : ∀ o, o ≤ d.length → d.length < o + need l →
    decodeSubfields (l.zip (offsetsFrom o l)) d = .err .fieldDecodeFailure := by
  induction l with
  | nil => intro o h1 h2; simp [need] at h2; omega
  | cons a l ih =>
    intro o h1 h2
    simp only [need, List.map_cons, List.sum_cons] at h2 ih
    simp only [offsetsFrom, List.zip_cons_cons, decodeSubfields]
    split_ifs with h
    · rfl
    · rw [ih _ (by omega) (by omega)]

/-! ### The catalog and the record map -/

/-- An id outside the skeleton of R58 has no category (R116). -/
theorem category_eq_none (c : Catalog) (id : Byte)
    (h : id ∉ ([0x80, 0x81, 0x82, 0x01, 0x0C, 0x0D, 0x7F] : List Byte)) : c.category id = none := by
  rw [Catalog.category, List.find?_eq_none]
  intro k hk he
  apply h
  have he : k.id = id := by simpa using he
  subst he
  simp only [Catalog.categories, List.mem_cons, List.not_mem_nil, or_false] at hk
  rcases hk with rfl | rfl | rfl | rfl | rfl | rfl | rfl <;> simp [Config.catImu, Config.catGnss, Config.catFilter,
    Config.cat01, Config.cat0C, Config.cat0D, Config.cat7F]

/-- The mapping of R114 holds the last record of each type id. -/
theorem mapGet_indexRecords (k : Byte) (rs : List RawRecord) : mapGet k (indexRecords rs) =
    (rs.filter fun r => r.descriptor = k).getLast? := by
  induction rs using List.reverseRecOn with
  | nil => rfl
  | append_singleton rs r ih =>
    rw [indexRecords_snoc, mapGet_mapSet, ih, List.filter_append]
    by_cases h : r.descriptor = k <;> simp [h]

end Sys2Proof
end

