-- ==== Sys2Proof/Tests/Slice0.lean ====
section
/-! SUPPORT. The model's own tests: the decoder on words written out from the spec's encodings, ill-formed terms that
the check refuses, one step of each instruction against the vectors of spec/95_test_vectors.md, and a witness for the
hypotheses of each statement.  Expected results are the spec's. -/

namespace Sys2Proof.Tests

open Sys2Proof.Machine

/-! ### The frames and the example catalog of spec/95_test_vectors.md -/

def bytesF1 : List Byte := [0x75, 0x65, 0x80, 0x07, 0x06, 0x04, 0x3F, 0x80, 0x00, 0x00, 0x2A, 0x04]
def f1 : RawFrame := ⟨⟨0x75, 0x65, 0x80⟩, 0x07, [⟨0x06, 0x04, [0x3F, 0x80, 0x00, 0x00]⟩], ⟨0x2A, 0x04⟩⟩
def bytesFmin : List Byte := [0x75, 0x65, 0x01, 0x01, 0xDC, 0x06]
def fmin : RawFrame := ⟨⟨0x75, 0x65, 0x01⟩, 0x01, [], ⟨0xDC, 0x06⟩⟩
/-- `FRAME(0x55; REC(0x04; 00))`, vector X2. -/
def fx2 : RawFrame := ⟨⟨0x75, 0x65, 0x55⟩, 0x04, [⟨0x03, 0x04, [0x00]⟩], ⟨0x3A, 0x5B⟩⟩
/-- `FRAME(0x80; REC(0x05; 00 01 00 02), REC(0x05; 00))`, vector X4. -/
def fx4 : RawFrame :=
  ⟨⟨0x75, 0x65, 0x80⟩, 0x0A, [⟨0x06, 0x05, [0x00, 0x01, 0x00, 0x02]⟩, ⟨0x03, 0x05, [0x00]⟩], ⟨0x7A, 0x10⟩⟩

def typeVec : RecordType := ⟨0x80, 0x04, "", [⟨"", .f4⟩, ⟨"", .f4⟩, ⟨"", .f4⟩]⟩
def typePair : RecordType := ⟨0x80, 0x05, "", [⟨"", .u2⟩, ⟨"", .i2⟩]⟩
def typeByte : RecordType := ⟨0x80, 0x06, "", [⟨"", .u1⟩]⟩
/-- The example catalog of program P6. -/
def catalog : Catalog := ⟨[typeVec, typePair, typeByte], [], []⟩

/-- Reset with the example catalog and `RX_CHUNK = 2`. -/
def s0 : State := { State.reset with cfg := ⟨catalog, 2⟩ }
def inSync1 : State := { s0 with st := .awaitSync1, buf := [0x75] }
def inDescriptor : State := { s0 with st := .awaitDescriptor, buf := [0x75, 0x65] }
def inLength : State := { s0 with st := .awaitLength, buf := [0x75, 0x65, 0x80], cat := 0x80 }
/-- In `AwaitBody` with the bytes `buf` of an `0x80` frame collected. -/
def inBody (buf : List Byte) (rem : Nat) : State := { s0 with st := .awaitBody, buf := buf, rem := rem, cat := 0x80 }
/-- All of F1 but its last byte. -/
def lastOfF1 : State := inBody (bytesF1.take 11) 1
/-- The 4 bytes of an `L = 0` candidate. -/
def lastOfZero : State := inBody [0x75, 0x65, 0x80, 0x00] 1
/-- The handler never returns. -/
def stuck : State := { lastOfF1 with handlerAnswers := [.never] }

def nextOf (o : Result) : Option State :=
  match o with
  | .next s => some s
  | .fault _ => none
  | .refused _ => none
def faultOf (o : Result) : Option Fault :=
  match o with
  | .next _ => none
  | .fault f => some f
  | .refused _ => none
def retOf (o : Result) : Option (Option Ret) := (nextOf o).map State.ret

/-! ### WellFormed refuses an ill-formed term, one for each check -/

theorem test_wf_sync0Miss : (Instr.sync0Miss 0x75).wellFormed = false := by decide
theorem test_wf_sync1Miss : (Instr.sync1Miss 0x65).wellFormed = false := by decide
theorem test_wf_read_empty : (Instr.read []).wellFormed = false := by decide
theorem test_wf_catOther_known : (Instr.catOther 0x0D).wellFormed = false := by decide
theorem test_wf_recParse_empty : (Instr.recParse []).wellFormed = false := by decide
theorem test_wf_frame_sync0 : (Instr.frame { f1 with header := ⟨0x74, 0x65, 0x80⟩ }).wellFormed = false := by decide
theorem test_wf_frame_sync1 : (Instr.frame { f1 with header := ⟨0x75, 0x64, 0x80⟩ }).wellFormed = false := by decide
theorem test_wf_frame_length : (Instr.frame { f1 with declaredLength := 0x08 }).wellFormed = false := by decide
theorem test_wf_frame_checksum : (Instr.frame { f1 with checksum := ⟨0x2A, 0x05⟩ }).wellFormed = false := by decide
theorem test_wf_frame_record :
    (Instr.frame { f1 with records := [⟨0x06, 0x04, [0x3F]⟩] }).wellFormed = false := by decide
theorem test_wf_record_length : (Instr.record ⟨0x05, 0x04, [0x00]⟩).wellFormed = false := by decide
theorem test_wf_record_too_long (d : List Byte) : (Instr.record ⟨0xFF, 0x04, d⟩).wellFormed = false := by
  simp [Instr.wellFormed, RawRecord.wellFormed, Config.maxRecord, Config.maxLengthByte]
theorem test_wf_value_size : (Instr.value .u [0, 0, 0]).wellFormed = false := by decide
theorem test_wf_value_float : (Instr.value .f [0, 0]).wellFormed = false := by decide
theorem test_wf_fieldEncode_bits : (Instr.fieldEncode ⟨0x80, 4, [⟨.u, 1, 256⟩]⟩).wellFormed = false := by decide
theorem test_wf_fieldEncode_kind : (Instr.fieldEncode ⟨0x80, 4, [⟨.f, 1, 0⟩]⟩).wellFormed = false := by decide
theorem test_wf_fieldEncode_too_long :
    (Instr.fieldEncode ⟨0x80, 4, List.replicate 32 ⟨.u, 8, 0⟩⟩).wellFormed = false := by decide
theorem test_wf_accepts : (Instr.frame f1).wellFormed = true ∧ (Instr.frame fx4).wellFormed = true := by decide

/-! ### Decoding: words written out from spec/30_encoding.md R52, R56, R58 and spec/opcode_table.json -/

theorem test_decode_sync0Hit : decode (.stream .awaitSync0 0) [0b01110101] = .ok .sync0Hit := by decide
theorem test_decode_sync0Miss : decode (.stream .awaitSync0 0) [0x65] = .ok (.sync0Miss 0x65) := by decide
theorem test_decode_sync1Hit : decode (.stream .awaitSync1 0) [0b01100101] = .ok .sync1Hit := by decide
theorem test_decode_sync1Miss : decode (.stream .awaitSync1 0) [0x75] = .ok (.sync1Miss 0x75) := by decide
theorem test_decode_desc : decode (.stream .awaitDescriptor 0) [0x75] = .ok (.desc 0x75) := by decide
theorem test_decode_len : decode (.stream .awaitLength 0) [0xFF] = .ok (.len 0xFF) := by decide
theorem test_decode_body : decode (.stream .awaitBody 2) [0x2A] = .ok (.body 0x2A) := by decide
theorem test_decode_bodyLast : decode (.stream .awaitBody 1) [0x04] = .ok (.bodyLast 0x04) := by decide
theorem test_decode_noRow : decode (.stream .awaitBody 0) [0x04] = .err .noRow := by decide
theorem test_decode_frame : decode .frame (bytesF1 ++ [0xAA]) = .ok (.frame f1) := by decide
theorem test_decode_frame_rejects :
    decode .frame (bytesF1.take 11) = .err .truncated
      ∧ decode .frame [0x75, 0x65, 0x80, 0x00, 0x5A, 0x03] = .err .zeroLength
      ∧ decode .frame [0x75, 0x65, 0x80, 0x01, 0x5B, 0x05] = .err (.badFrame .badChecksum)
      ∧ decode .frame [0x00, 0x00, 0x80, 0x01, 0x81, 0x01] = .err .noMagic := by decide
theorem test_decode_record :
    decode .record [0x05, 0x05, 0xAA, 0xBB, 0xCC, 0xA9] = .ok (.record ⟨0x05, 0x05, [0xAA, 0xBB, 0xCC]⟩) := by decide
theorem test_decode_record_rejects :
    decode .record [0x01, 0x04] = .err .badRecordLength ∧ decode .record [0x04, 0x04, 0x00] = .err .truncated := by
  decide
theorem test_decode_ck : decode .checksum [0x2A, 0x04] = .ok (.ck 0x2A 0x04) := by decide
theorem test_decode_category :
    decode .category [0x80] = .ok .cat80 ∧ decode .category [0x81] = .ok .cat81 ∧ decode .category [0x82] = .ok .cat82
      ∧ decode .category [0x01] = .ok .cat01 ∧ decode .category [0x0C] = .ok .cat0C
      ∧ decode .category [0x0D] = .ok .cat0D ∧ decode .category [0x7F] = .ok .cat7F
      ∧ decode .category [0x83] = .ok (.catOther 0x83) := by decide
theorem test_decode_answers :
    decodeAnswer (.bytes [0x75]) = .read [0x75] ∧ decodeAnswer (.bytes []) = .timeout
      ∧ decodeAnswer .timeout = .timeout ∧ decodeAnswer .ioError = .ioError := by decide
/-- The same bytes numbered as the opcode table numbers them. -/
theorem test_decodeTableWord :
    decodeTableWord 8 0x75 = some .sync0Hit ∧ decodeTableWord 8 0x65 = some .sync1Hit
      ∧ decodeTableWord 8 0x00 = some (.sync0Miss 0x00) ∧ decodeTableWord 8 0x7F = some .cat7F
      ∧ decodeTableWord 16 0x042A = some (.ck 0x2A 0x04)
      ∧ decodeTableWord 32 0x01000404 = some (.record ⟨0x04, 0x04, [0x00, 0x01]⟩)
      ∧ decodeTableWord 48 0x06DC01016575 = some (.frame fmin) := by decide
theorem test_withFetchWord_sync0Hit :
    (nextOf (step (s0.withFetchWord 8 0x75))).map (fun s => (s.st, s.buf)) = some (.awaitSync1, [0x75]) := by decide
theorem test_withFetchWord_sync1Hit :
    (nextOf (step (s0.withFetchWord 8 0x65))).map (fun s => (s.st, s.buf))
      = some (.awaitDescriptor, [0x75, 0x65]) := by decide
theorem test_withFetchWord_cat82 :
    retOf (step (s0.withFetchWord 8 0x82)) = some (some (.dispatch (.aggregate 0x82 []))) := by decide
theorem test_withFetchWord_frame :
    (nextOf (step (s0.withFetchWord 48 0x06DC01016575))).map (fun s => s.out)
      = some [⟨fmin, .aggregate 0x01 []⟩] := by decide

/-! ### One step of each row: the transition vectors T1 to T19 -/

theorem test_T1_sync0Hit : exec .sync0Hit s0 = .next { s0 with st := .awaitSync1, buf := [0x75] } := rfl
theorem test_T3_sync0Miss : exec (.sync0Miss 0x65) s0 = .next s0 := rfl
theorem test_T4_sync1Hit : exec .sync1Hit inSync1 = .next { s0 with st := .awaitDescriptor, buf := [0x75, 0x65] } := rfl
theorem test_T6_sync1Miss : exec (.sync1Miss 0x75) inSync1 = .next s0 := rfl
theorem test_T8_desc :
    exec (.desc 0x75) inDescriptor
      = .next { s0 with st := .awaitLength, buf := [0x75, 0x65, 0x75], cat := 0x75 } := rfl
theorem test_T9_len : exec (.len 0x07) inLength = .next (inBody [0x75, 0x65, 0x80, 0x07] 8) := rfl
theorem test_T11_len_does_not_wrap : exec (.len 0xFF) inLength = .next (inBody [0x75, 0x65, 0x80, 0xFF] 256) := rfl
theorem test_T14_body : exec (.body 0x2A) (inBody (bytesF1.take 10) 2) = .next lastOfF1 := rfl
theorem test_T15_bodyLast :
    (nextOf (exec (.bodyLast 0x04) lastOfF1)).map (fun s => (s.st, s.buf, s.out.map Delivery.frame, s.log, s.frameOk))
      = some (.awaitSync0, [], [f1], [], true) := by decide
theorem test_T16_bodyLast_badChecksum :
    (nextOf (exec (.bodyLast 0x05) lastOfF1)).map (fun s => (s.st, s.buf, s.out, s.log, s.errCode))
      = some (.awaitSync0, [], [], [.frameError .badChecksum], 2) := by decide
theorem test_T17_zero_length :
    (nextOf (exec (.bodyLast 0xAA) lastOfZero)).map (fun s => (s.st, s.buf, s.out, s.log, s.errCode))
      = some (.awaitSync0, [], [], [.frameError (.insufficientBytes 6 5)], 1) := by decide
theorem test_read : (nextOf (exec (.read [0x01, 0x02]) s0)).map State.rxq = some [0x01, 0x02] := by decide
theorem test_T18_timeout : exec .timeout inSync1 = .next inSync1 := rfl
theorem test_T19_ioError : exec .ioError inSync1 = .next { inSync1 with log := [.ioError] } := rfl

/-! ### The formats: the bytes of a frame, a record, a checksum pair on the stream -/

theorem test_S1_frame :
    (nextOf (exec (.frame f1) s0)).map (fun s => (s.st, s.buf, s.out.map Delivery.frame, s.log, s.cat))
      = some (.awaitSync0, [], [f1], [], 0x80) := by decide
theorem test_S4_stray_sync0 :
    (nextOf (exec (.frame f1) inSync1)).map (fun s => (s.st, s.buf, s.out, s.log))
      = some (.awaitSync0, [], [], []) := by decide
theorem test_record :
    exec (.record ⟨0x06, 0x04, [0x3F, 0x80, 0x00, 0x00]⟩) (inBody (bytesF1.take 4) 8)
      = .next (inBody (bytesF1.take 10) 2) := rfl
theorem test_ck :
    (nextOf (exec (.ck 0x2A 0x04) (inBody (bytesF1.take 10) 2))).map (fun s => (s.st, s.out.map Delivery.frame))
      = some (.awaitSync0, [f1]) := by decide

/-! ### The category ids (R58) and DISPATCH (X2 to X4) -/

def withRecord : State := { s0 with recs := [⟨0x06, 0x05, [0xFF, 0xFE, 0x80, 0x00]⟩] }
def slotsX1 : List Slot :=
  [⟨0x04, none⟩, ⟨0x05, some ⟨0x80, 0x05, [⟨.u, 2, 65534⟩, ⟨.i, 2, 0x8000⟩]⟩⟩, ⟨0x06, none⟩]

theorem test_X1_cat80 : retOf (exec .cat80 withRecord) = some (some (.dispatch (.aggregate 0x80 slotsX1))) := by decide
theorem test_cat81 : retOf (exec .cat81 withRecord) = some (some (.dispatch (.aggregate 0x81 []))) := by decide
theorem test_cat82 : retOf (exec .cat82 withRecord) = some (some (.dispatch (.aggregate 0x82 []))) := by decide
theorem test_cat01 : retOf (exec .cat01 withRecord) = some (some (.dispatch (.aggregate 0x01 []))) := by decide
theorem test_cat0C : retOf (exec .cat0C withRecord) = some (some (.dispatch (.aggregate 0x0C []))) := by decide
theorem test_cat0D : retOf (exec .cat0D withRecord) = some (some (.dispatch (.aggregate 0x0D []))) := by decide
theorem test_cat7F : retOf (exec .cat7F withRecord) = some (some (.dispatch (.aggregate 0x7F []))) := by decide
theorem test_catOther :
    retOf (exec (.catOther 0x55) withRecord) = some (some (.dispatch (.unrecognized 0x55))) := by decide
theorem test_X2_dispatch_unrecognized :
    retOf (exec (.dispatch fx2) s0) = some (some (.dispatch (.unrecognized 0x55))) := by decide
theorem test_X4_dispatch_later_duplicate :
    retOf (exec (.dispatch fx4) s0)
      = some (some (.dispatch (.aggregate 0x80 [⟨0x04, none⟩, ⟨0x05, none⟩, ⟨0x06, none⟩]))) := by decide

/-! ### The operations: K, V and E vectors -/

theorem test_K14_csum : (nextOf (exec (.csum [0x75, 0x65]) s0)).map (fun s => (s.a, s.b)) = some (0xDA, 0x4F) := by
  decide
theorem test_K8_csum_order : csum [0x01, 0x02, 0x03] = (0x06, 0x0A) ∧ csum [0x03, 0x02, 0x01] = (0x06, 0x0E) := by
  decide
/-- The example of R82: the new `a` goes into `b`. -/
theorem test_csumStep :
    (nextOf (exec (.csumStep 0x80) { s0 with a := 0xDA, b := 0x4F })).map (fun s => (s.a, s.b))
      = some (0x5A, 0xA9) := by decide
theorem test_csumCheck : retOf (exec (.csumCheck bytesF1) s0) = some (some (.check true)) := by decide
theorem test_V5_csumCheck_lsb :
    retOf (exec (.csumCheck [0x75, 0x65, 0x80, 0x01, 0x5B, 0x05]) s0) = some (some (.check false)) := by decide
theorem test_V7_frameDecode : retOf (exec (.frameDecode bytesF1) s0) = some (some (.frame (.ok f1))) := by decide
theorem test_V19_frameDecode_short_region :
    retOf (exec (.frameDecode [0x75, 0x65, 0x80, 0x07, 0x06, 0x04, 0x6B, 0xDC]) s0)
      = some (some (.frame (.err (.insufficientBytes 6 2)))) := by decide
/-- The example of R94. -/
theorem test_recParse :
    retOf (exec (.recParse [0x0A, 0x04, 0x04, 0x00, 0x01, 0x05, 0x05, 0xAA, 0xBB, 0xCC]) s0)
      = some (some (.records (.ok [⟨4, 0x04, [0x00, 0x01]⟩, ⟨5, 0x05, [0xAA, 0xBB, 0xCC]⟩]))) := by decide
theorem test_V12_recParse_overrun :
    retOf (exec (.recParse [0x05, 0x09, 0x04, 0xAA, 0xBB]) s0)
      = some (some (.records (.err (.insufficientBytes 9 4)))) := by decide
theorem test_V7_frameEncode : retOf (exec (.frameEncode f1) s0) = some (some (.bytes bytesF1)) := by decide
theorem test_E1_offsets : retOf (exec (.offsets typeVec.layout) s0) = some (some (.offsets [0, 4, 8] 12)) := by decide
theorem test_X1_fieldDecode :
    retOf (exec (.fieldDecode typePair ⟨0x06, 0x05, [0xFF, 0xFE, 0x80, 0x00]⟩) s0)
      = some (some (.typed (.ok ⟨0x80, 0x05, [⟨.u, 2, 65534⟩, ⟨.i, 2, 0x8000⟩]⟩))) := by decide
theorem test_P6_fieldDecode_too_short :
    retOf (exec (.fieldDecode typePair ⟨0x05, 0x05, [0xFF, 0xFE, 0x80]⟩) s0)
      = some (some (.typed (.err .fieldDecodeFailure))) := by decide
theorem test_X1_value_signed :
    retOf (exec (.value .i [0x80, 0x00]) s0) = some (some (.value ⟨.i, 2, 0x8000⟩ (some (-32768)))) := by decide
theorem test_value_float :
    retOf (exec (.value .f [0x3F, 0x80, 0x00, 0x00]) s0) = some (some (.value ⟨.f, 4, 0x3F800000⟩ none)) := by decide
theorem test_fieldEncode :
    retOf (exec (.fieldEncode ⟨0x80, 0x05, [⟨.u, 2, 65534⟩, ⟨.i, 2, 0x8000⟩]⟩) s0)
      = some (some (.record ⟨0x06, 0x05, [0xFF, 0xFE, 0x80, 0x00]⟩)) := by decide
theorem test_complete :
    (nextOf (exec .complete { s0 with buf := bytesF1 })).map (fun s => (s.buf, s.out.map Delivery.frame, s.frameOk))
      = some ([], [f1], true) := by decide
theorem test_handler :
    (nextOf (exec (.handler ⟨f1, .unrecognized 0x80⟩) s0)).map State.out = some [⟨f1, .unrecognized 0x80⟩] := by decide

/-- A queued call runs whatever its operands are (R131): the frame V5, whose checksum is wrong, is received. -/
theorem test_call_with_ill_formed_operand :
    (nextOf (step { s0 with calls := [.frame ⟨⟨0x75, 0x65, 0x80⟩, 0x01, [], ⟨0x5B, 0x05⟩⟩] })).map
      (fun s => (s.st, s.out, s.log, s.calls)) = some (.awaitSync0, [], [.frameError .badChecksum], []) := by decide

/-! ### Several instances (R45): a step of one leaves the other where it is -/

theorem test_instances :
    ((Instances.stepAt 1 [.next { s0 with rxq := [0x75] }, .next { s0 with rxq := [0x75] }]).map fun o =>
      (nextOf o).map State.st) = [some .awaitSync0, some .awaitSync1] := by decide

/-! ### Witnesses: states and operands that meet the hypotheses of each statement -/

theorem catalog_wf : catalog.WellFormed := ⟨by decide, by decide⟩
theorem s0_inv : s0.Inv := ⟨rfl, by decide, by decide, by decide, catalog_wf⟩
theorem inSync1_inv : inSync1.Inv := ⟨rfl, by decide, by decide, by decide, catalog_wf⟩
theorem lastOfF1_inv : lastOfF1.Inv :=
  ⟨⟨0x07, [0x06, 0x04, 0x3F, 0x80, 0x00, 0x00, 0x2A], rfl, by decide, by decide⟩,
    by decide, by decide, by decide, catalog_wf⟩
theorem lastOfZero_inv : lastOfZero.Inv :=
  ⟨⟨0x00, [], rfl, by decide, by decide⟩, by decide, by decide, by decide, catalog_wf⟩
theorem queued_inv : ({ lastOfF1 with rxq := [0x04] } : State).Inv :=
  ⟨lastOfF1_inv.shape, by decide, by decide, by decide, catalog_wf⟩
theorem streaming : ({ lastOfF1 with rxq := [0x04] } : State).Streaming := by decide

theorem witness_HuntingForTheFirstMagicByte :
    s0.st = .awaitSync0 ∧ (0x65 : Byte) ≠ 0x75 ∧ s0.buf = [] ∧ s0.frameOk = false ∧ s0.errCode = 0
      ∧ ∀ v ∈ ([0x74, 0x76] : List Byte), v ≠ 0x75 := by decide
theorem witness_HuntingForTheSecondMagicByte : inSync1.st = .awaitSync1 ∧ (0x75 : Byte) ≠ 0x65 := by decide
theorem witness_DescriptorAndLengthBytesAreRecorded :
    inDescriptor.st = .awaitDescriptor ∧ inLength.st = .awaitLength := by decide
theorem witness_BodyBytesAreCountedDown :
    (inBody (bytesF1.take 10) 2).st = .awaitBody ∧ 2 ≤ (inBody (bytesF1.take 10) 2).rem
      ∧ (lastOfF1.st = .awaitBody ∧ lastOfF1.rem = 1)
      ∧ inLength.st = .awaitLength ∧ inLength.buf.length = 3 ∧ ([] : List Byte).length = (0x00 : Byte).toNat
      ∧ (List.replicate 255 (0x00 : Byte)).length = (0xFF : Byte).toNat :=
  ⟨rfl, by decide, ⟨rfl, rfl⟩, rfl, rfl, rfl, List.length_replicate⟩
theorem witness_LastBodyByteEndsTheFrame :
    lastOfF1.st = .awaitBody ∧ lastOfF1.rem = 1 ∧ frameDecode (lastOfF1.buf ++ [0x04]) = .ok f1
      ∧ lastOfF1.HandlerReturns ∧ frameDecode (lastOfF1.buf ++ [0x05]) = .err .badChecksum := by decide
theorem witness_CandidateHasDeclaredLengthPlusFive : lastOfF1.Inv ∧ lastOfF1.st = .awaitBody ∧ lastOfF1.rem = 1 :=
  ⟨lastOfF1_inv, rfl, rfl⟩
theorem witness_FrameErrorDiscardsTheCandidate :
    frameDecode lastOfZero.buf = .err (.insufficientBytes 6 4)
      ∧ frameDecode (lastOfF1.buf ++ [0x05]) = .err .badChecksum := by decide
theorem witness_HandlerIsGivenTheFrameAndItsDispatch :
    s0.HandlerReturns ∧ ({ s0 with handlerAnswers := [.returns, .never] } : State).HandlerReturns
      ∧ frameDecode ({ s0 with buf := bytesF1 } : State).buf = .ok f1
      ∧ ({ s0 with buf := bytesF1 } : State).HandlerReturns ∧ stuck.handlerAnswers.head? = some .never := by decide
theorem witness_HandlerThatNeverReturnsStopsTheBlock :
    stuck.handlerAnswers.head? = some .never ∧ stuck.st = .awaitBody ∧ stuck.rem = 1
      ∧ frameDecode (stuck.buf ++ [0x04]) = .ok f1
      ∧ frameDecode ({ stuck with buf := bytesF1 } : State).buf = .ok f1 := by decide
theorem witness_SourceAnswersTakeEffect :
    ([0x01, 0x02] : List Byte) ≠ [] ∧ s0.rxq = [] ∧ ([0x01, 0x02] : List Byte).length ≤ s0.cfg.rxChunk := by decide
theorem witness_RowsOutsideTheirPlaceStop :
    inSync1.st ≠ .awaitSync0 ∧ s0.st ≠ .awaitSync1 ∧ s0.st ≠ .awaitDescriptor ∧ s0.st ≠ .awaitLength
      ∧ lastOfF1.rem < 2 ∧ (inBody (bytesF1.take 10) 2).rem ≠ 1
      ∧ ({ s0 with rxq := [0x01] } : State).rxq ≠ []
      ∧ s0.cfg.rxChunk < ([0x01, 0x02, 0x03] : List Byte).length := by decide
theorem witness_EmptyQueueMeansARead :
    s0.Streaming ∧ s0.rxq = [] ∧ 1 ≤ s0.cfg.rxChunk ∧ s0.source = []
      ∧ ([0x01, 0x02] : List Byte).length ≤ s0.cfg.rxChunk
      ∧ s0.cfg.rxChunk < ([0x01, 0x02, 0x03] : List Byte).length
      ∧ ({ s0 with source := [.bytes [0x01, 0x02, 0x03]] } : State).Streaming := by decide
theorem witness_TimeoutsHoldAnIncompleteFrame :
    lastOfF1.Streaming ∧ lastOfF1.rxq = [] ∧ lastOfF1.frameOk = false ∧ lastOfF1.errCode = 0 := by decide
theorem f1_wellFormedFrame : WellFormedFrame bytesF1 :=
  ⟨0x75, 0x65, 0x80, 0x07, 0x2A, 0x04, [⟨0x06, 0x04, [0x3F, 0x80, 0x00, 0x00]⟩],
    by decide, by decide, by decide, by decide⟩
theorem witness_ResynchronizationDeliversTheFrame :
    s0.st = .awaitSync0 ∧ s0.buf = [] ∧ s0.HandlerReturns ∧ (∀ v ∈ ([0xFF] : List Byte), v ≠ 0x75)
      ∧ WellFormedFrame bytesF1 ∧ byteAt bytesF1 0 = 0x75 ∧ byteAt bytesF1 1 = 0x65 :=
  ⟨rfl, rfl, by decide, by decide, f1_wellFormedFrame, rfl, rfl⟩
theorem witness_FrameRowIsReceivedAndDelivered :
    s0.st = .awaitSync0 ∧ s0.buf = [] ∧ s0.HandlerReturns ∧ f1.wellFormed = true := by decide
theorem witness_BackToBackFramesAreAllDelivered :
    s0.st = .awaitSync0 ∧ s0.buf = [] ∧ (∀ h ∈ s0.handlerAnswers, h = .returns)
      ∧ (∀ f ∈ [f1, fmin, fx4], f.wellFormed = true)
      ∧ frameEncode f1 = bytesF1.take 11 ++ [0x04] ∧ frameEncode f1 = [] ++ bytesF1 := by decide
theorem witness_RecordRowIsCollected :
    (inBody (bytesF1.take 4) 8).st = .awaitBody
      ∧ RawRecord.wellFormed ⟨0x07, 0x04, [0, 0, 0, 0, 0]⟩ = true
      ∧ (0x07 : Byte).toNat < (inBody (bytesF1.take 4) 8).rem := by decide
theorem witness_ChecksumPairEndsTheCandidate :
    (inBody (bytesF1.take 10) 2).st = .awaitBody ∧ (inBody (bytesF1.take 10) 2).rem = 2
      ∧ frameDecode ((inBody (bytesF1.take 10) 2).buf ++ [0x2A, 0x04]) = .ok f1
      ∧ (inBody (bytesF1.take 10) 2).HandlerReturns
      ∧ frameDecode ((inBody (bytesF1.take 10) 2).buf ++ [0x2A, 0x05]) = .err .badChecksum := by decide
theorem witness_AnyBytesAreConsumed : lastOfF1.Inv ∧ ∀ h ∈ lastOfF1.handlerAnswers, h = .returns :=
  ⟨lastOfF1_inv, by decide⟩
theorem witness_StrayMagicByteLosesTheFrame :
    inSync1.st = .awaitSync1 ∧ f1.wellFormed = true ∧ 0x75 ∉ (frameEncode f1).tail := by decide
theorem witness_OtherCategoriesAreUnrecognized :
    (0x55 : Byte) ∉ ([0x80, 0x81, 0x82, 0x01, 0x0C, 0x0D, 0x7F] : List Byte)
      ∧ fx2.header.setDescriptor = 0x55 := by decide
theorem witness_EachSlotHoldsTheLastRecordOfItsType :
    s0.cfg.catalog.category fx4.header.setDescriptor = some ⟨0x80, .data, [typeVec, typePair, typeByte]⟩
      ∧ s0.cfg.catalog.category fmin.header.setDescriptor = some ⟨0x01, .nonData, []⟩ := ⟨rfl, rfl⟩
theorem witness_UnknownTypeIdsAreIgnored :
    catalog.category ({ f1 with records := [⟨3, 0x07, [0x99]⟩] } : RawFrame).header.setDescriptor
      = some ⟨0x80, .data, [typeVec, typePair, typeByte]⟩ := rfl
theorem witness_TooShortToCheckFailsTheCheck :
    ([] : List Byte).length < 2 ∧ ([0x75] : List Byte).length < 2 := by decide
theorem witness_LengthThenChecksumAreChecked :
    ([0x75, 0x65, 0x80, 0x01, 0x5B] : List Byte).length < 6
      ∧ 4 ≤ ([0x75, 0x65, 0x80, 0x01] : List Byte).length
      ∧ ((0x5B : Byte), (0x05 : Byte)) ≠ csum [0x75, 0x65, 0x80, 0x01] := by decide
theorem witness_DamagedByteGivesBadChecksum :
    frameDecode bytesF1 = .ok f1 ∧ (0x74 : Byte) ≠ byteAt bytesF1 0
      ∧ 11 < bytesF1.length ∧ (0x05 : Byte) ≠ byteAt bytesF1 11 := by decide
theorem witness_SuccessfulDecodeIsSound : frameDecode bytesF1 = .ok f1 := by decide
theorem witness_DecodeThenEncodeGivesTheBytesBack :
    WellFormedFrame bytesF1 ∧ frameDecode bytesF1 = .ok f1 ∧ bytesF1.length = f1.declaredLength.toNat + 5
      ∧ lastOfF1.Inv ∧ lastOfF1.st = .awaitBody ∧ lastOfF1.rem = 1
      ∧ frameDecode (lastOfF1.buf ++ [0x04]) = .ok f1 :=
  ⟨f1_wellFormedFrame, by decide, by decide, lastOfF1_inv, rfl, rfl, by decide⟩
theorem witness_ZeroLengthCandidateIsLogged :
    lastOfZero.Inv ∧ lastOfZero.st = .awaitBody ∧ lastOfZero.rem = 1 ∧ byteAt lastOfZero.buf 3 = 0 :=
  ⟨lastOfZero_inv, rfl, rfl, rfl⟩
theorem witness_PackedRecordsAreParsedInOrder :
    (∀ r ∈ f1.records, r.length.toNat = 2 + r.data.length) ∧ (0x07 : Byte).toNat = payloadLength f1.records
      ∧ (0x01 : Byte).toNat = payloadLength [] := by decide
/-- V13, V15, V12: one for each error, with `rs = []` (V13: one record). -/
theorem witness_RecordParserErrors :
    ((∀ r ∈ ([⟨2, 4, []⟩] : List RawRecord), r.length.toNat = 2 + r.data.length)
        ∧ payloadLength [⟨2, 4, []⟩] < (0x04 : Byte).toNat
        ∧ min ((0x04 : Byte).toNat - payloadLength [⟨2, 4, []⟩]) ([0x07] : List Byte).length < 2)
      ∧ (payloadLength [] < (0x03 : Byte).toNat
        ∧ 2 ≤ min ((0x03 : Byte).toNat - payloadLength []) ([0x01, 0x04] : List Byte).length
        ∧ (byteAt [0x01, 0x04] 0).toNat < 2)
      ∧ 2 ≤ min ((0x05 : Byte).toNat - payloadLength []) ([0x09, 0x04, 0xAA, 0xBB] : List Byte).length
      ∧ min ((0x05 : Byte).toNat - payloadLength []) ([0x09, 0x04, 0xAA, 0xBB] : List Byte).length
          < (byteAt [0x09, 0x04, 0xAA, 0xBB] 0).toNat := by decide
theorem witness_OffsetsAreRunningSizes :
    (offsets typeVec.layout)[0]? = some 0 ∧ 1 + 1 < typeVec.layout.length ∧ (offsets typeVec.layout)[1]? = some 4
      ∧ (offsets typeVec.layout).getLast? = some 8 ∧ (typeVec.layout.getLast?).isSome := by decide
theorem witness_FieldDecodeNeedsTheWholeLayout :
    ([0xFF, 0xFE, 0x80] : List Byte).length < need typePair.layout
      ∧ need typePair.layout ≤ ([0xFF, 0xFE, 0x80, 0x00] : List Byte).length := by decide
theorem witness_ValueIsTheBigEndianNumber :
    ([0x7F, 0xFF] : List Byte) ≠ [] ∧ be [0x7F, 0xFF] < 2 ^ (8 * 2 - 1) ∧ 2 ^ (8 * 2 - 1) ≤ be [0x80, 0x00] := by
  decide
theorem witness_FieldEncodeInvertsDecode :
    fieldDecode typePair ⟨0x06, 0x05, [0xFF, 0xFE, 0x80, 0x00]⟩
        = .ok ⟨0x80, 0x05, [⟨.u, 2, 65534⟩, ⟨.i, 2, 0x8000⟩]⟩
      ∧ (0x05 : Byte) = typePair.typeId ∧ ([0xFF, 0xFE, 0x80, 0x00] : List Byte).length = need typePair.layout
      ∧ (0x06 : Byte).toNat = 2 + ([0xFF, 0xFE, 0x80, 0x00] : List Byte).length
      ∧ 2 + (fieldEncode ⟨0x80, 0x05, [⟨.u, 2, 65534⟩, ⟨.i, 2, 0x8000⟩]⟩).data.length < 256 := by decide
theorem witness_StepRunsTheSelectedRow :
    s0.resetReq = false ∧ ({ s0 with rxq := [0x75, 0x65] } : State).rxq = 0x75 :: [0x65]
      ∧ decode (.stream s0.st s0.rem) [0x75, 0x65] = .ok .sync0Hit := by decide
theorem witness_StepRunsTheQueuedCall :
    s0.resetReq = false ∧ s0.rxq = [] ∧ ({ s0 with calls := [.csum []] } : State).calls = .csum [] :: []
      ∧ ({ s0 with calls := [.recParse []] } : State).calls = .recParse [] :: [] := by decide
theorem witness_AssertedResetGivesTheResetValues : ({ lastOfF1 with resetReq := true } : State).resetReq = true := rfl
theorem witness_EveryStepKeepsTheInvariant : s0.Inv ∧ ∃ t : State, step s0 = .next t := ⟨s0_inv, _, rfl⟩
theorem witness_StepStopsOnlyForTheHandler :
    ({ lastOfF1 with rxq := [0x04] } : State).Inv
      ∧ ∀ i ∈ [Instr.csum [], .frame f1, .recParse []], i.callable = true :=
  ⟨queued_inv, by decide⟩
theorem witness_TheLoopHasNoExit :
    ({ lastOfF1 with rxq := [0x04] } : State).Inv ∧ ({ lastOfF1 with rxq := [0x04] } : State).calls = []
      ∧ ∀ h ∈ ({ lastOfF1 with rxq := [0x04] } : State).handlerAnswers, h = .returns :=
  ⟨queued_inv, rfl, by decide⟩
theorem witness_ParametersStandAndTracesGrow : (∃ t : State, step s0 = .next t) ∧ s0.resetReq = false := ⟨⟨_, rfl⟩, rfl⟩
theorem witness_HandlerIsInvokedOnlyForAcceptedFrames :
    ({ lastOfF1 with rxq := [0x04] } : State).Streaming
      ∧ (nextOf (step { lastOfF1 with rxq := [0x04] })).map (fun t => decide (t.out ≠ lastOfF1.out)) = some true := by
  decide
theorem witness_UnreadRegistersDoNotMatter :
    s0.Streaming ∧ (s0.st = .awaitBody → 200 = s0.rem) ∧ ∃ t : State, step s0 = .next t :=
  ⟨by decide, by decide, _, rfl⟩
theorem witness_QueuedBytesAreConsumedInOrder :
    s0.resetReq = false ∧ ({ s0 with rxq := [0x75, 0x65] } : State).rxq = [0x75] ++ [0x65] := by decide
theorem witness_ResultDependsOnTheStreamAlone :
    ({ s0 with source := [.timeout, .bytes bytesF1, .ioError] } : State).Inv
      ∧ ({ s0 with source := [.timeout, .bytes bytesF1, .ioError] } : State).Streaming
      ∧ ({ s0 with source := [.timeout, .bytes bytesF1, .ioError] } : State).rxq = []
      ∧ ∀ h ∈ s0.handlerAnswers, h = .returns :=
  ⟨⟨rfl, by decide, by decide, by decide, catalog_wf⟩, by decide, rfl, by decide⟩
theorem witness_InstancesShareNothing :
    [0, 1, 0].Perm [1, 0, 0]
      ∧ Instances.ShareCatalog catalog [.next s0, .fault .handlerNeverReturns, .next inSync1] := by
  refine ⟨by decide, ?_⟩
  intro s hs
  simp only [List.mem_cons, reduceCtorEq, List.not_mem_nil, or_false, false_or, Host.Outcome.next.injEq] at hs
  rcases hs with rfl | rfl <;> rfl
theorem witness_DecodeOfEncodeIsTheInstruction :
    (Instr.frame f1).wellFormed = true ∧ encode (.frame f1) = some (.frame, bytesF1)
      ∧ (Instr.record ⟨0x02, 0x04, []⟩).wellFormed = true
      ∧ encode (.record ⟨0x02, 0x04, []⟩) = some (.record, [0x02, 0x04]) := by decide

end Sys2Proof.Tests
end

/-! SUPPORT. The family of spec/10_state.md: the invariant of R25, the parameters, the traces, and the registers that
no step reads. -/

namespace Sys2Proof.Machine

/-! ### What an instruction can do -/

/-- The next states an instruction can answer from `s`, whatever instruction it is: it consumes bytes, completes a
candidate, invokes the handler, fills the input queue, logs an I/O error, or writes no more than the scratch of a
decode and `ret`. -/
inductive Effect (s : State) : State → Prop where
  | consumed {t : State} (v : Byte) (h : consumeByte v s = .next t) : Effect s t
  | received {t : State} (w : List Byte) (h : consumeBytes w s = .next t) : Effect s t
  | completed {t : State} (h : complete s = .next t) : Effect s t
  | handled {t : State} (d : Delivery) (h : invokeHandler d s = .next t) : Effect s t
  | filled (bs : List Byte) (h : bs.length ≤ s.cfg.rxChunk) : Effect s (s.rxFill bs)
  | ioErrorLogged : Effect s (s.logAppend .ioError)
  | computed (a b : Byte) (off : Nat) (recs : List RawRecord) (ret : Option Ret) :
      Effect s { s with a := a, b := b, off := off, recs := recs, ret := ret }

/-- A byte-class row where the byte-class map selects it consumes its byte (R56, R63). -/
theorem Effect.of_selected {s t : State} {i : Instr} (v : Byte) (hd : decodeStream s.st s.rem v = .ok i)
    (h : exec i s = .next t) : Effect s t :=
  .consumed v (exec_of_decodeStream v s i hd ▸ h)

/-- FRAME.DECODE writes the scratch registers alone (R18, R19). -/
theorem decodeScratch_eq (s : State) (w : List Byte) : ∃ (a b : Byte) (off : Nat) (recs : List RawRecord),
    s.decodeScratch w = { s with a := a, b := b, off := off, recs := recs } := by
  unfold State.decodeScratch
  split_ifs <;> exact ⟨_, _, _, _, rfl⟩

/-- READ that answers: nothing for no bytes, else at most `RX_CHUNK` bytes in the queue (R75). -/
theorem execRead_next {bs : List Byte} {s t : State} (h : execRead bs s = .next t) :
    t = s ∨ (bs.length ≤ s.cfg.rxChunk ∧ t = s.rxFill bs) := by
  unfold execRead at h
  split_ifs at h with h0 hq hl
  · cases h; exact .inl rfl
  · cases h; exact .inr ⟨by omega, rfl⟩

/-- Every instruction that answers has one of these effects.  A byte-class row answers only where the byte-class map
selects it. -/
theorem exec_effect (i : Instr) {s t : State} (h : exec i s = .next t) : Effect s t := by
  cases i with
  | sync0Hit =>
    obtain ⟨hc, -⟩ := (whenSelected_next_iff _ _ _).1 h
    exact .of_selected Config.sync0 (by simp_all [decodeStream]) h
  | sync0Miss v | sync1Miss v | desc v | len v | bodyLast v =>
    obtain ⟨hc, -⟩ := (whenSelected_next_iff _ _ _).1 h
    exact .of_selected v (by simp_all [decodeStream]) h
  | sync1Hit =>
    obtain ⟨hc, -⟩ := (whenSelected_next_iff _ _ _).1 h
    exact .of_selected Config.sync1 (by simp_all [decodeStream]) h
  | body v =>
    obtain ⟨hc, -⟩ := (whenSelected_next_iff _ _ _).1 h
    obtain ⟨hst, hr⟩ : s.st = .awaitBody ∧ 2 ≤ s.rem := by simpa using hc
    exact .of_selected v (by simp only [decodeStream, hst]; rw [if_neg (by omega), if_neg (by omega)]) h
  | read bs =>
    rcases execRead_next h with rfl | ⟨hl, rfl⟩
    · exact .computed t.a t.b t.off t.recs t.ret
    · exact .filled bs hl
  | timeout => cases h; exact .computed s.a s.b s.off s.recs s.ret
  | ioError => cases h; exact .ioErrorLogged
  | frame f => exact .received _ h
  | record r => exact .received _ h
  | ck x y => exact .received _ h
  | complete => exact .completed h
  | handler d => exact .handled d h
  | frameDecode w =>
    cases h
    obtain ⟨a, b, off, recs, he⟩ := decodeScratch_eq s w
    rw [he]
    exact .computed a b off recs _
  | csum | csumStep | csumCheck => cases h; exact .computed _ _ s.off s.recs _
  | recParse => cases h; exact .computed s.a s.b _ _ _
  | cat80 | cat81 | cat82 | cat01 | cat0C | cat0D | cat7F | catOther | frameEncode | offsets | fieldDecode | value
  | fieldEncode | dispatch => cases h; exact .computed s.a s.b s.off s.recs _

/-- The handler that returns: one entry of `out`, one answer of the environment used up (R23, R149). -/
theorem invokeHandler_next {d : Delivery} {s t : State} (h : invokeHandler d s = .next t) :
    t = { s with out := s.out ++ [d], handlerAnswers := s.handlerAnswers.tail } := by
  by_cases hr : s.HandlerReturns
  · rw [invokeHandler_returns d s hr] at h; cases h; rfl
  · rw [invokeHandler_never d s (not_not.1 hr)] at h; cases h

/-! ### The invariant -/

theorem bufShape_awaitBody {s : State} (hst : s.st = .awaitBody) : s.BufShape ↔ ∃ (L : Byte) (rest : List Byte),
    s.buf = Config.sync0 :: Config.sync1 :: s.cat :: L :: rest ∧ 1 ≤ s.rem ∧ rest.length + s.rem = remOf L := by
  unfold State.BufShape; rw [hst]

/-- The slots the machine's parameters hold belong to their category and have distinct type ids (R107). -/
theorem slotsOf_owned (id : Byte) : ∀ rt ∈ Config.slotsOf id, rt.categoryId = id := by
  intro rt hrt
  obtain ⟨x, -, rfl⟩ := List.mem_map.1 ((distinctSlots_spec _ _).1 rt hrt).1
  rfl

theorem slotsOf_distinct (id : Byte) : ((Config.slotsOf id).map RecordType.typeId).Nodup :=
  (distinctSlots_spec _ _).2

theorem params_catalog_wellFormed : Config.params.catalog.WellFormed := by
  constructor
  · simpa [Catalog.categories, Config.params] using ⟨slotsOf_owned _, slotsOf_owned _, slotsOf_owned _⟩
  · simp [Catalog.categories, Config.params, slotsOf_distinct]

theorem reset_inv : State.reset.Inv :=
  ⟨rfl, by decide, Nat.zero_le _, Nat.le_add_left _ _, params_catalog_wellFormed⟩

/-- An asserted reset leaves the parameters, so it meets the invariant wherever they are as R8 and R107 say. -/
theorem blockReset_inv {s : State} (hi : s.Inv) : s.blockReset.Inv :=
  ⟨rfl, ⟨Nat.zero_le _, fun _ => rfl⟩, Nat.zero_le _, hi.chunk, hi.catalog⟩

theorem Effect.inv {s t : State} (h : Effect s t) (hi : s.Inv) : t.Inv := by
  cases h with
  | consumed v h => exact (consumeByte_inv v s hi).1 t h
  | received w h => exact (consumeBytes_inv w s hi).1 t h
  | completed h => exact complete_inv s t hi.queue hi.chunk hi.catalog h
  | handled d h =>
    rw [invokeHandler_next h]
    exact ⟨hi.shape, hi.status, hi.queue, hi.chunk, hi.catalog⟩
  | filled bs h => exact ⟨hi.shape, hi.status, h, hi.chunk, hi.catalog⟩
  | ioErrorLogged => exact ⟨hi.shape, hi.status, hi.queue, hi.chunk, hi.catalog⟩
  | computed => exact ⟨hi.shape, hi.status, hi.queue, hi.chunk, hi.catalog⟩

/-- Settles O49: a popped byte is consumed from a state of the invariant, a queued call and a read are instructions
with one of the effects, each of which keeps the invariant, and a reset meets it. -/
theorem everyStepKeepsTheInvariant : Obligations.EveryStepKeepsTheInvariant := by
  intro s t hi h
  rcases step_cases s t h with ⟨-, rfl⟩ | ⟨-, v, rest, hq, h⟩ | ⟨-, -, i, rest, -, h⟩ | ⟨-, -, -, h⟩
  · exact blockReset_inv hi
  · have hlen : rest.length ≤ s.cfg.rxChunk := by
      have := hi.queue
      rw [hq, List.length_cons] at this
      omega
    have hpop : ({ s with rxq := rest } : State).Inv := ⟨hi.shape, hi.status, hlen, hi.chunk, hi.catalog⟩
    exact (consumeByte_inv v _ (clearStatus_inv _ hpop)).1 t h
  · have hcall : ({ s with calls := rest } : State).Inv := ⟨hi.shape, hi.status, hi.queue, hi.chunk, hi.catalog⟩
    exact (exec_effect i h).inv (clearStatus_inv _ hcall)
  · have hread : ({ s with source := (nextAnswer s.cfg.rxChunk s.source).2 } : State).Inv :=
      ⟨hi.shape, hi.status, hi.queue, hi.chunk, hi.catalog⟩
    exact (exec_effect _ h).inv (clearStatus_inv _ hread)

/-- Settles O6: in `AwaitBody` the buffer is four bytes and the body bytes so far, and the body bytes so far and
`rem` add up to `L + 1`. -/
theorem candidateHasDeclaredLengthPlusFive : Obligations.CandidateHasDeclaredLengthPlusFive := by
  intro s v hi hst hr
  obtain ⟨L, rest, hbuf, -, hlen⟩ := (bufShape_awaitBody hst).1 hi.shape
  have hL : byteAt s.buf 3 = L := by rw [hbuf]; rfl
  have hrest : rest.length = L.toNat := by
    rw [hr] at hlen
    simpa [remOf, Config.bodyExtra] using hlen
  have hsize : (s.buf ++ [v]).length = L.toNat + 5 := by simp [hbuf, hrest]
  have hbyte := L.isLt
  exact ⟨by rw [hL, hsize], by omega⟩

/-! ### The parameters and the traces -/

/-- What `t` keeps of `s` along a run without a reset: the parameters, and the traces as prefixes (R23, R24, R30). -/
structure State.ExtendedBy (s t : State) : Prop where
  cfg : t.cfg = s.cfg
  out : s.out <+: t.out
  log : s.log <+: t.log

theorem State.ExtendedBy.trans {s t u : State} (h : s.ExtendedBy t) (k : t.ExtendedBy u) : s.ExtendedBy u :=
  ⟨k.cfg.trans h.cfg, h.out.trans k.out, h.log.trans k.log⟩

theorem consumeByte_extends {v : Byte} {s t : State} (h : consumeByte v s = .next t) : s.ExtendedBy t := by
  obtain ⟨-, -, hcfg, -, -, -, hout, hlog⟩ := consumeByte_frame v s t h
  exact ⟨hcfg, hout, hlog⟩

theorem consumeBytes_extends {w : List Byte} {s t : State} (h : consumeBytes w s = .next t) : s.ExtendedBy t := by
  induction w generalizing s with
  | nil => cases h; exact ⟨rfl, List.prefix_rfl, List.prefix_rfl⟩
  | cons v w ih =>
    obtain ⟨u, hu, hw⟩ := (andThen_next_iff _ _ _).1 h
    have hv := consumeByte_extends hu
    exact State.ExtendedBy.trans ⟨hv.cfg, hv.out, hv.log⟩ (ih hw)

theorem complete_extends {s t : State} (h : complete s = .next t) : s.ExtendedBy t := by
  rcases complete_cases s with ⟨f, -, -, hc⟩ | ⟨e, -, hc⟩ | ⟨-, hc⟩ <;> rw [hc] at h <;> cases h
  · exact ⟨rfl, List.prefix_append _ _, List.prefix_rfl⟩
  · exact ⟨rfl, List.prefix_rfl, List.prefix_append _ _⟩

theorem Effect.extendedBy {s t : State} (h : Effect s t) : s.ExtendedBy t := by
  cases h with
  | consumed v h => exact consumeByte_extends h
  | received w h => exact consumeBytes_extends h
  | completed h => exact complete_extends h
  | handled d h => rw [invokeHandler_next h]; exact ⟨rfl, List.prefix_append _ _, List.prefix_rfl⟩
  | filled => exact ⟨rfl, List.prefix_rfl, List.prefix_rfl⟩
  | ioErrorLogged => exact ⟨rfl, List.prefix_rfl, List.prefix_append _ _⟩
  | computed => exact ⟨rfl, List.prefix_rfl, List.prefix_rfl⟩

/-- A step without a reset: a byte, a call or a read, each of which writes no parameter and appends to the traces. -/
theorem step_extends {s t : State} (hr : s.resetReq = false) (h : step s = .next t) : s.ExtendedBy t := by
  rcases step_cases s t h with ⟨hr', -⟩ | ⟨-, v, rest, -, h⟩ | ⟨-, -, i, rest, -, h⟩ | ⟨-, -, -, h⟩
  · rw [hr] at hr'; cases hr'
  · have he := consumeByte_extends h
    exact ⟨he.cfg, he.out, he.log⟩
  · have he := (exec_effect i h).extendedBy
    exact ⟨he.cfg, he.out, he.log⟩
  · have he := (exec_effect _ h).extendedBy
    exact ⟨he.cfg, he.out, he.log⟩

/-- Settles O52: a reset keeps the parameters, and every other step extends the state it starts from. -/
theorem parametersStandAndTracesGrow : Obligations.ParametersStandAndTracesGrow := by
  intro s t h
  rcases Bool.eq_false_or_eq_true s.resetReq with hr | hr
  · rw [step_reset s hr] at h
    cases h
    exact ⟨rfl, fun hr' => by rw [hr] at hr'; cases hr'⟩
  · have he := step_extends hr h
    exact ⟨he.cfg, fun _ => ⟨he.out, he.log⟩⟩

/-! ### Reads of the byte source -/

@[simp] theorem afterAnswer_out (s : State) (x : SourceAnswer) : (afterAnswer s x).out = s.out := by cases x <;> rfl

@[simp] theorem afterAnswer_st (s : State) (x : SourceAnswer) : (afterAnswer s x).st = s.st := by cases x <;> rfl

@[simp] theorem afterAnswer_rem (s : State) (x : SourceAnswer) : (afterAnswer s x).rem = s.rem := by cases x <;> rfl

/-- A streaming step with no byte waiting leaves what the answer of the byte source leaves (R75). -/
theorem step_afterAnswer {s : State} (hs : s.Streaming) (hq : s.rxq = []) :
    step s = .next (afterAnswer ({ s with source := (nextAnswer s.cfg.rxChunk s.source).2 } : State).clearStatus
      (nextAnswer s.cfg.rxChunk s.source).1) := by
  rw [step_read s hs.1 hq hs.2]
  exact exec_answer _ _ hq fun bs hb => nextAnswer_bytes_length _ _ bs hb

/-! ### The handler trace -/

/-- The one consume step that writes `out`: the byte that completes a frame that decodes (R70 to R72). -/
theorem consumeByte_delivers {v : Byte} {s t : State} (h : consumeByte v s = .next t) (hout : t.out ≠ s.out) :
    s.st = .awaitBody ∧ s.rem = 1 ∧ ∃ f : RawFrame, frameDecode (s.buf ++ [v]) = .ok f
      ∧ t.out = s.out ++ [deliver s.cfg.catalog f] := by
  cases hst : s.st with
  | awaitSync0 => rw [consumeByte_awaitSync0 v s hst] at h; cases h; split at hout <;> exact absurd rfl hout
  | awaitSync1 => rw [consumeByte_awaitSync1 v s hst] at h; cases h; split at hout <;> exact absurd rfl hout
  | awaitDescriptor => rw [consumeByte_awaitDescriptor v s hst] at h; cases h; exact absurd rfl hout
  | awaitLength => rw [consumeByte_awaitLength v s hst] at h; cases h; exact absurd rfl hout
  | awaitBody =>
    obtain h0 | h1 | h2 : s.rem = 0 ∨ s.rem = 1 ∨ 2 ≤ s.rem := by omega
    · rw [consumeByte_zero v s hst h0] at h; cases h
    · rw [consumeByte_bodyLast v s hst h1] at h
      rcases complete_cases { s with buf := s.buf ++ [v], rem := 0 } with ⟨f, hd, -, hc⟩ | ⟨e, -, hc⟩ | ⟨-, hc⟩ <;>
        rw [hc] at h <;> cases h
      · exact ⟨rfl, h1, f, hd, rfl⟩
      · exact absurd rfl hout
    · rw [consumeByte_body v s hst h2] at h; cases h; exact absurd rfl hout

/-- Settles O53: a read leaves `out` as it is, so the step consumes a byte, and that byte completes the frame. -/
theorem handlerIsInvokedOnlyForAcceptedFrames : Obligations.HandlerIsInvokedOnlyForAcceptedFrames := by
  intro s t hs h hout
  cases hq : s.rxq with
  | nil =>
    rw [step_afterAnswer hs hq] at h
    cases h
    exact absurd (afterAnswer_out _ _) hout
  | cons v rest =>
    rw [step_consume s v rest hs.1 hq] at h
    obtain ⟨hst, hr, f, hd, hf⟩ := consumeByte_delivers h hout
    exact ⟨v, rest, f, rfl, hst, hr, hd, hf⟩

/-! ### The registers that are not read -/

/-- Values for the registers that a streaming step does not read: `cat`, `rem` outside `AwaitBody`, and the scratch
of a decode (R15, R17, R21). -/
structure Unread where
  cat : Byte
  rem : Nat
  a : Byte
  b : Byte
  off : Nat
  recs : List RawRecord

/-- `s` with other values in those registers. -/
def State.withUnread (s : State) (u : Unread) : State :=
  { s with cat := u.cat, rem := u.rem, a := u.a, b := u.b, off := u.off, recs := u.recs }

theorem afterAnswer_withUnread (s : State) (u : Unread) (x : SourceAnswer) :
    afterAnswer (s.withUnread u) x = (afterAnswer s x).withUnread u := by cases x <;> rfl

/-- The scratch and `rem` after the last body byte (R70, R71). -/
def Unread.completed (u : Unread) : Unread := { u with rem := 0, a := 0, b := 0, off := 0, recs := [] }

/-- The two runs of a consume step, over `s` and over `s` with other unread values, end in states that differ in the
unread registers alone; `rem` is the same where the next step reads it. -/
theorem consumeByte_withUnread {v : Byte} {s t : State} {u : Unread} (hu : s.st = .awaitBody → u.rem = s.rem)
    (h : consumeByte v s = .next t) : ∃ u' : Unread,
      consumeByte v (s.withUnread u) = .next (t.withUnread u') ∧ (t.st = .awaitBody → u'.rem = t.rem) := by
  cases hst : s.st with
  | awaitSync0 =>
    rw [consumeByte_awaitSync0 v s hst] at h
    rw [consumeByte_awaitSync0 v (s.withUnread u) hst]
    by_cases hv : v = Config.sync0
    · rw [if_pos hv] at h ⊢; cases h; exact ⟨u, rfl, nofun⟩
    · rw [if_neg hv] at h ⊢; cases h; exact ⟨u, rfl, hu⟩
  | awaitSync1 =>
    rw [consumeByte_awaitSync1 v s hst] at h
    rw [consumeByte_awaitSync1 v (s.withUnread u) hst]
    by_cases hv : v = Config.sync1
    · rw [if_pos hv] at h ⊢; cases h; exact ⟨u, rfl, nofun⟩
    · rw [if_neg hv] at h ⊢; cases h; exact ⟨u, rfl, nofun⟩
  | awaitDescriptor =>
    rw [consumeByte_awaitDescriptor v s hst] at h
    rw [consumeByte_awaitDescriptor v (s.withUnread u) hst]
    cases h
    exact ⟨{ u with cat := v }, rfl, nofun⟩
  | awaitLength =>
    rw [consumeByte_awaitLength v s hst] at h
    rw [consumeByte_awaitLength v (s.withUnread u) hst]
    cases h
    exact ⟨{ u with rem := remOf v }, rfl, fun _ => rfl⟩
  | awaitBody =>
    have hrem : (s.withUnread u).rem = s.rem := hu hst
    obtain h0 | h1 | h2 : s.rem = 0 ∨ s.rem = 1 ∨ 2 ≤ s.rem := by omega
    · rw [consumeByte_zero v s hst h0] at h; cases h
    · rw [consumeByte_bodyLast v s hst h1] at h
      rw [consumeByte_bodyLast v (s.withUnread u) hst (hrem.trans h1)]
      rcases complete_cases { s with buf := s.buf ++ [v], rem := 0 } with ⟨f, hd, hr, hc⟩ | ⟨e, hd, hc⟩ | ⟨-, hc⟩ <;>
        rw [hc] at h <;> cases h
      · exact ⟨u.completed, complete_ok _ f hd hr, nofun⟩
      · exact ⟨u.completed, complete_err _ e hd, nofun⟩
    · rw [consumeByte_body v s hst h2] at h
      rw [consumeByte_body v (s.withUnread u) hst (hrem ▸ h2), hrem]
      cases h
      exact ⟨{ u with rem := s.rem - 1 }, rfl, fun _ => rfl⟩

/-- The same of a streaming step: a read touches none of the unread registers. -/
theorem step_withUnread {s t : State} {u : Unread} (hs : s.Streaming) (hu : s.st = .awaitBody → u.rem = s.rem)
    (h : step s = .next t) : ∃ u' : Unread,
      step (s.withUnread u) = .next (t.withUnread u') ∧ (t.st = .awaitBody → u'.rem = t.rem) := by
  cases hq : s.rxq with
  | nil =>
    rw [step_afterAnswer hs hq] at h
    cases h
    refine ⟨u, ?_, by rw [afterAnswer_st, afterAnswer_rem]; exact hu⟩
    rw [step_afterAnswer (s := s.withUnread u) hs hq, ← afterAnswer_withUnread]
    rfl
  | cons v rest =>
    rw [step_consume s v rest hs.1 hq] at h
    rw [step_consume (s.withUnread u) v rest hs.1 hq]
    exact consumeByte_withUnread (s := ({ s with rxq := rest } : State).clearStatus) hu h

/-- Settles O54: the two steps end in states that differ in the unread registers alone, none of which is observed. -/
theorem unreadRegistersDoNotMatter : Obligations.UnreadRegistersDoNotMatter := by
  intro s t c a' b' n off' recs' hs hn h
  obtain ⟨u', h', hrem⟩ := step_withUnread (u := ⟨c, n, a', b', off', recs'⟩) hs hn h
  exact ⟨t.withUnread u', h', rfl, rfl, rfl, rfl, rfl, rfl, rfl, rfl, rfl, hrem⟩

/-! ### Reset -/

/-- Settles O46: each value is the one `State.reset` writes out. -/
theorem resetStateIsAsTheSpecSays : Obligations.ResetStateIsAsTheSpecSays :=
  ⟨rfl, rfl, rfl, rfl, rfl, rfl, rfl, rfl, rfl⟩

/-- Settles O48: the empty queue and buffer fit every value of the parameters, and the slots the model takes from the
OPEN ones are well formed. -/
theorem resetMeetsTheInvariant : Obligations.ResetMeetsTheInvariant := reset_inv

end Sys2Proof.Machine

/-! SUPPORT. The family of spec/20_memory.md: the input queue, and several instances of the block. -/

namespace Sys2Proof.Machine

/-! ### The input queue -/

/-- Two continuations that agree on the state `o` answers agree after `o`. -/
theorem andThen_congr {o : Result} {k l : State → Result} (h : ∀ t, o = .next t → k t = l t) :
    andThen o k = andThen o l := by
  cases o with
  | next t => exact h t rfl
  | fault f => rfl
  | refused r => rfl

/-- Consuming the oldest byte with `q` in the queue is the step that pops it, but for the queue it leaves: no consume
step reads what waits behind its byte (R32, R63). -/
theorem consumeByte_eq_step {s : State} {v : Byte} {rest : List Byte} (q : List Byte) (hr : s.resetReq = false)
    (hq : s.rxq = v :: rest) : consumeByte v ({ s with rxq := q } : State).clearStatus =
      andThen (step s) fun t => .next { t with rxq := q } := by
  rw [step_consume s v rest hr hq]
  exact consumeByte_setRxq v ({ s with rxq := rest } : State).clearStatus q

/-- The step that pops the oldest byte leaves the bytes behind it, and asserts no reset. -/
theorem step_pops {s t : State} {v : Byte} {rest : List Byte} (hr : s.resetReq = false) (hq : s.rxq = v :: rest)
    (h : step s = .next t) : t.resetReq = false ∧ t.rxq = rest := by
  rw [step_consume s v rest hr hq] at h
  obtain ⟨-, -, -, -, hrxq, hreset, -, -⟩ := consumeByte_frame v _ t h
  exact ⟨hreset.trans hr, hrxq⟩

/-- Settles O55, by induction on the queued bytes: each step pops the oldest one, and what it does with it is the same
whatever waits behind. -/
theorem queuedBytesAreConsumedInOrder : Obligations.QueuedBytesAreConsumedInOrder := by
  intro s w rest
  induction w generalizing s with
  | nil => intro _ hq; subst hq; rfl
  | cons v w ih =>
    intro hr hq
    rw [List.length_cons, run_succ, consumeBytes_cons, consumeByte_eq_step rest hr hq, andThen_assoc]
    refine andThen_congr fun t ht => ?_
    obtain ⟨hreset, hrxq⟩ := step_pops hr hq ht
    exact ih t hreset hrxq

/-! ### Several instances -/

theorem andThen_run_zero (o : Result) : andThen o (run 0) = o := by cases o <;> rfl

/-- A step and then a run is a run of one step more. -/
theorem andThen_step_run (o : Result) (k : Nat) : andThen (andThen o step) (run k) = andThen o (run (k + 1)) := by
  rw [andThen_assoc]
  congr 1; funext s; exact (run_succ k s).symm

/-- However the instances are interleaved, each takes its own steps and no others (R45). -/
theorem Instances.interleave_getElem? (schedule : List Nat) (m : Instances) (k : Nat) :
    (Instances.interleave schedule m)[k]? = m[k]?.map fun o => andThen o (run (schedule.count k)) := by
  induction schedule generalizing m with
  | nil => simp [andThen_run_zero]
  | cons j schedule ih =>
    rw [Instances.interleave_cons, ih]
    by_cases h : k = j
    · subst h
      rw [Instances.stepAt_self, Option.map_map, List.count_cons_self]
      congr 1; funext o; exact andThen_step_run o _
    · rw [Instances.stepAt_other m h, List.count_cons_of_ne (Ne.symm h)]

/-- Schedules that are permutations of each other lead to the same instances. -/
theorem Instances.interleave_perm {schedule other : List Nat} (h : schedule.Perm other) (m : Instances) :
    Instances.interleave other m = Instances.interleave schedule m := by
  apply List.ext_getElem?
  intro k
  rw [Instances.interleave_getElem?, Instances.interleave_getElem?, h.count_eq]

/-- No run writes the parameters (R30). -/
theorem run_cfg {k : Nat} {s t : State} (h : run k s = .next t) : t.cfg = s.cfg := by
  induction k generalizing s with
  | zero => cases h; rfl
  | succ k ih =>
    rw [run_succ] at h
    obtain ⟨u, hu, hk⟩ := (andThen_next_iff _ _ _).1 h
    exact (ih hk).trans (parametersStandAndTracesGrow s u hu).1

/-- A member that runs came from one that ran, by a run of its own, and a run keeps the catalog (R139). -/
theorem Instances.interleave_shareCatalog {c : Catalog} {m : Instances} (hm : m.ShareCatalog c)
    (schedule : List Nat) : (Instances.interleave schedule m).ShareCatalog c := by
  intro t ht
  obtain ⟨k, hk⟩ := List.mem_iff_getElem?.1 ht
  rw [Instances.interleave_getElem?] at hk
  obtain ⟨o, ho, hrun⟩ := Option.map_eq_some_iff.1 hk
  obtain ⟨s, rfl, hs⟩ := (andThen_next_iff _ _ _).1 hrun
  rw [run_cfg hs]
  exact hm s (List.mem_of_getElem? ho)

/-- Settles O60: each of the instances is where its own run takes it, which depends on the schedule through a count alone
and writes no catalog. -/
theorem instancesShareNothing : Obligations.InstancesShareNothing :=
  fun schedule m => ⟨Instances.interleave_getElem? schedule m,
    fun _ h => Instances.interleave_perm h m, fun _ hm => Instances.interleave_shareCatalog hm schedule⟩

end Sys2Proof.Machine

/-! SUPPORT. The family of spec/30_encoding.md: the decoder on encodings, and the receipt of the wire formats. -/

namespace Sys2Proof

/-! ### Well-formed records and frames -/

/-- What the check on a record says, one conjunct per rule (R48, R54). -/
theorem RawRecord.wellFormed_iff (r : RawRecord) : r.wellFormed = true ↔ r.Tiled ∧ r.length.toNat ≤ 254 := by
  rw [RawRecord.wellFormed, Bool.and_eq_true, decide_eq_true_eq, decide_eq_true_eq]
  rfl

/-- What the check on a frame says, one conjunct per rule (R47, R49, R50, R59). -/
theorem RawFrame.wellFormed_iff (f : RawFrame) : f.wellFormed = true ↔
    f.header.sync0 = Config.sync0 ∧ f.header.sync1 = Config.sync1 ∧ (∀ r ∈ f.records, r.wellFormed = true)
      ∧ f.declaredLength.toNat = payloadLength f.records
      ∧ (f.checksum.msb, f.checksum.lsb) = csum f.coveredBytes := by
  simp only [RawFrame.wellFormed, Bool.and_eq_true, decide_eq_true_eq, List.all_eq_true, and_assoc]

/-- A well-formed frame has `L + 5` bytes (R51). -/
theorem frameEncode_length {f : RawFrame} (hf : f.wellFormed = true) :
    (frameEncode f).length = f.declaredLength.toNat + 5 :=
  Laws.WireLength.frame f .frame _ hf rfl

/-- FRAME.DECODE gives a well-formed frame back (R101). -/
theorem frameDecode_frameEncode {f : RawFrame} (hf : f.wellFormed = true) : frameDecode (frameEncode f) = .ok f := by
  obtain ⟨-, -, hrec, hL, hck⟩ := f.wellFormed_iff.1 hf
  exact frameDecode_packed (fun r hr => (r.wellFormed_iff.1 (hrec r hr)).1) hL hck

/-! ### The decoder -/

/-- A byte read in the stream is the row of the byte-class map, whatever follows it (R56). -/
@[simp] theorem decode_stream (st : SyncState) (rem : Nat) (v : Byte) (rest : List Byte) :
    decode (.stream st rem) (v :: rest) = decodeStream st rem v := rfl

@[simp] theorem decode_category (v : Byte) (rest : List Byte) :
    decode .category (v :: rest) = .ok (decodeCategory v) := rfl

/-- A byte that is none of the seven ids is the row CAT.OTHER (R58). -/
theorem decodeCategory_other {v : Byte} (hv : v ∉ Config.knownCategories) : decodeCategory v = .catOther v := by
  simp only [Config.knownCategories, List.mem_cons, List.not_mem_nil, or_false, not_or] at hv
  simp [decodeCategory, hv]

/-- A well-formed record is read back from its bytes: its length byte is in the range of R54 and counts its data. -/
theorem decodeRecord_bytes_append {r : RawRecord} (hr : r.wellFormed = true) (rest : List Byte) :
    decodeRecord (r.bytes ++ rest) = .ok (.record r) := by
  obtain ⟨htile, hmax⟩ := r.wellFormed_iff.1 hr
  have hdata : r.length.toNat - Config.recHdrLen = r.data.length := by simp only [Config.recHdrLen]; omega
  have hrange : ¬ (r.length.toNat < Config.recHdrLen ∨ Config.maxRecord < r.length.toNat) := by
    simp only [Config.recHdrLen, Config.maxRecord, Config.maxLengthByte]; omega
  simp [RawRecord.bytes, decodeRecord, hrange, hdata]

/-- A well-formed frame is read back from its bytes: they start with the magic bytes, the fourth of them gives their
number, and FRAME.DECODE of that many bytes gives the frame (R51, R52). -/
theorem decodeFrame_frameEncode_append {f : RawFrame} (hf : f.wellFormed = true) (rest : List Byte) :
    decodeFrame (frameEncode f ++ rest) = .ok (.frame f) := by
  obtain ⟨h0, h1, -, hL, -⟩ := f.wellFormed_iff.1 hf
  have hlen := frameEncode_length hf
  have hsize : frameLength f.declaredLength = (frameEncode f).length := by
    simp only [frameLength, Config.hdrLen, Config.ckLen]; omega
  have hlong : ¬ (frameEncode f ++ rest).length ≤ Config.hdrLen := by
    simp only [List.length_append, Config.hdrLen]; omega
  have hnonzero : f.declaredLength ≠ 0 := by
    intro hz
    have hzero : f.declaredLength.toNat = 0 := by rw [hz]; rfl
    rw [hzero, payloadLength] at hL
    omega
  have hmagic : byteAt (frameEncode f ++ rest) 0 = Config.sync0 ∧ byteAt (frameEncode f ++ rest) 1 = Config.sync1 :=
    ⟨h0, h1⟩
  have hbyte : byteAt (frameEncode f ++ rest) Config.hdrLen = f.declaredLength := rfl
  rw [decodeFrame, if_neg hlong, if_pos hmagic, hbyte, if_neg hnonzero, hsize, if_neg (by simp), List.take_left,
    frameDecode_frameEncode hf]

/-- Settles O57: the formats are read back from their length fields, a byte class and a category id from the byte that
the row fixes or its operand carries, and no other instruction has bits. -/
theorem decodeOfEncodeIsTheInstruction : Obligations.DecodeOfEncodeIsTheInstruction := by
  intro i p w rest hw he
  cases i with
  | frame f => cases he; exact decodeFrame_frameEncode_append hw rest
  | record r => cases he; exact decodeRecord_bytes_append hw rest
  | ck x y => cases he; rfl
  | sync0Miss v | sync1Miss v =>
    cases he
    exact (decode_stream _ _ v rest).trans (if_neg (of_decide_eq_true hw))
  | catOther v =>
    cases he
    exact (decode_category v rest).trans (congrArg Res.ok (decodeCategory_other (of_decide_eq_true hw)))
  | sync0Hit | sync1Hit | desc | len | body | bodyLast => cases he; rfl
  | cat80 | cat81 | cat82 | cat01 | cat0C | cat0D | cat7F => cases he; rfl
  | read | timeout | ioError | csum | csumStep | csumCheck | frameDecode | recParse | frameEncode | offsets
  | fieldDecode | value | fieldEncode | dispatch | complete | handler => cases he

/-- Settles O58: in each sync state the model's map is the one the statement writes out. -/
theorem byteClassMapIsTotal : Obligations.ByteClassMapIsTotal := by
  intro st rem v rest
  rw [decode_stream]
  cases st <;> rfl

/-- Settles O59: each word is the encoding of a well-formed instruction, the record's with one byte after it. -/
theorem writtenOutWordsDecode : Obligations.WrittenOutWordsDecode :=
  have read := decodeOfEncodeIsTheInstruction
  ⟨read .sync0Hit _ _ [] rfl rfl,
    read (.sync1Miss 0x75) _ _ [] (by decide) rfl,
    read (.len 0x07) _ _ [] rfl rfl,
    read (.bodyLast 0x04) _ _ [] rfl rfl,
    read .cat82 _ _ [] rfl rfl,
    read (.catOther 0x55) _ _ [] (by decide) rfl,
    read (.record ⟨0x04, 0x04, [0x00, 0x01]⟩) _ _ [0x05] (by decide) rfl,
    read (.ck 0x2A 0x04) _ _ [] rfl rfl,
    read (.frame ⟨⟨0x75, 0x65, 0x01⟩, 0x01, [], ⟨0xDC, 0x06⟩⟩) _ _ [] (by decide) rfl⟩

/-! ### The catalog -/

/-- The skeleton's ids are distinct, so each of its categories is the one found under its id (R58). -/
theorem category_of_mem {c : Catalog} {k : Category} (hk : k ∈ c.categories) : c.category k.id = some k := by
  simp only [Catalog.categories, List.mem_cons, List.not_mem_nil, or_false] at hk
  rcases hk with rfl | rfl | rfl | rfl | rfl | rfl | rfl <;> rfl

end Sys2Proof

namespace Sys2Proof.Machine

/-! ### Rows outside their place -/

theorem whenSelected_neg {p : Prop} [Decidable p] (h : ¬ p) (o : Result) :
    whenSelected (decide p) o = .fault .rowNotSelected := by
  simp [whenSelected, h]

/-- Settles O11: a byte-class row stops where the condition of its row in R56 fails, and READ by its two guards. -/
theorem rowsOutsideTheirPlaceStop : Obligations.RowsOutsideTheirPlaceStop := by
  intro s v
  refine ⟨fun hst => ⟨whenSelected_neg hst _, whenSelected_neg (fun hc => hst hc.1) _⟩,
    whenSelected_neg (fun hc => hc.2 rfl) _,
    fun hst => ⟨whenSelected_neg hst _, whenSelected_neg (fun hc => hst hc.1) _⟩,
    whenSelected_neg (fun hc => hc.2 rfl) _,
    fun hst => whenSelected_neg hst _,
    fun hst => whenSelected_neg hst _,
    fun hout => whenSelected_neg ?_ _,
    fun hout => whenSelected_neg ?_ _,
    fun bs hbs hq => ?_,
    fun bs hbs hq hlong => ?_⟩
  · rintro ⟨hst, hr⟩
    exact hout.elim (fun h => h hst) fun h => by omega
  · rintro ⟨hst, hr⟩
    exact hout.elim (fun h => h hst) fun h => h hr
  · exact (if_neg hbs).trans (if_pos hq)
  · exact (if_neg hbs).trans ((if_neg (not_not.2 hq)).trans (if_pos hlong))

/-! ### The category rows -/

/-- The dispatch of the records held, under the id of a category of the catalog (R115, R117). -/
theorem returnDispatch_of_mem {s : State} {k : Category} (hk : k ∈ s.cfg.catalog.categories) :
    returnDispatch k.id s =
      { s with ret := some (.dispatch (.aggregate k.id (k.slots.map (fillSlot (indexRecords s.recs))))) } := by
  simp only [returnDispatch, dispatchOn, category_of_mem hk, State.setRet]

/-- Settles O21: each of the seven rows dispatches under the id of its category of the skeleton. -/
theorem knownCategoriesAreRecognized : Obligations.KnownCategoriesAreRecognized := by
  intro s
  have known : ∀ k ∈ s.cfg.catalog.categories, (.next (returnDispatch k.id s) : Result) = .next
      { s with ret := some (.dispatch (.aggregate k.id (k.slots.map (fillSlot (indexRecords s.recs))))) } :=
    fun k hk => congrArg Host.Outcome.next (returnDispatch_of_mem hk)
  simp only [Catalog.categories, List.forall_mem_cons] at known
  obtain ⟨imu, gnss, filter, cat01, cat0C, cat0D, cat7F, -⟩ := known
  exact ⟨imu, gnss, filter, cat01, cat0C, cat0D, cat7F⟩

/-! ### The receipt of a candidate -/

/-- The four bytes before the body, received while hunting (R64, R66, R68, R69). -/
theorem consumeBytes_header (c L : Byte) {s : State} (hst : s.st = .awaitSync0) (hbuf : s.buf = []) :
    consumeBytes [Config.sync0, Config.sync1, c, L] s = .next
      { s with
        st := .awaitBody, buf := [Config.sync0, Config.sync1, c, L], cat := c, rem := remOf L,
        frameOk := false, errCode := 0 } := by
  obtain ⟨st, rem, buf, cat, a, b, off, recs, rxq, ok, ec, out, log, src, ha, rr, calls, ret, cfg⟩ := s
  subst hst hbuf
  rfl

theorem consumeBytes_singleton (v : Byte) (s : State) : consumeBytes [v] s = consumeByte v s.clearStatus := by
  rw [consumeBytes_cons]
  cases consumeByte v s.clearStatus <;> rfl

/-- The bytes that bring `rem` to 0 are collected, and the last of them completes the candidate (R70, R71). -/
theorem consumeBytes_completes (w : List Byte) (v : Byte) {s : State} (hst : s.st = .awaitBody)
    (hr : s.rem = w.length + 1) : consumeBytes (w ++ [v]) s =
      complete { s with buf := s.buf ++ (w ++ [v]), rem := 0, frameOk := false, errCode := 0 } := by
  induction w generalizing s with
  | nil =>
    have hlast := consumeByte_bodyLast v s.clearStatus hst hr
    rw [List.nil_append, consumeBytes_singleton, hlast]
    rfl
  | cons u w ih =>
    rw [List.length_cons] at hr
    have hbody := consumeByte_body u s.clearStatus hst (show 2 ≤ s.rem by omega)
    rw [List.cons_append, consumeBytes_cons, hbody, andThen_next, ih]
    · simp [State.clearStatus, State.setStatus]
    · exact hst
    · show s.rem - 1 = w.length + 1
      omega

/-- A candidate received while hunting: its header, and as many bytes as the header's length field makes `rem` count
(R69).  The last one completes it (R71). -/
theorem consumeBytes_candidate (c L : Byte) (w : List Byte) (v : Byte) {s : State} (hst : s.st = .awaitSync0)
    (hbuf : s.buf = []) (hlen : remOf L = w.length + 1) :
    consumeBytes ([Config.sync0, Config.sync1, c, L] ++ (w ++ [v])) s = complete
      { s with
        st := .awaitBody, buf := [Config.sync0, Config.sync1, c, L] ++ (w ++ [v]), cat := c, rem := 0,
        frameOk := false, errCode := 0 } := by
  rw [consumeBytes_append, consumeBytes_header c L hst hbuf, andThen_next]
  exact consumeBytes_completes w v rfl hlen

/-- The bytes of a well-formed frame form a candidate: its records and the first byte of its checksum, then the second
byte, are as many as its length field declares (R49, R53). -/
theorem consumeBytes_frameEncode {f : RawFrame} (hf : f.wellFormed = true) {s : State} (hst : s.st = .awaitSync0)
    (hbuf : s.buf = []) : consumeBytes (frameEncode f) s = complete
      { s with
        st := .awaitBody, buf := frameEncode f, cat := f.header.setDescriptor, rem := 0,
        frameOk := false, errCode := 0 } := by
  obtain ⟨h0, h1, -, -, -⟩ := f.wellFormed_iff.1 hf
  have hbytes : frameEncode f = [Config.sync0, Config.sync1, f.header.setDescriptor, f.declaredLength]
      ++ ((recordsBytes f.records ++ [f.checksum.msb]) ++ [f.checksum.lsb]) := by
    simp [frameEncode, RawFrame.coveredBytes, Checksum.bytes, h0, h1]
  have hlen : remOf f.declaredLength = (recordsBytes f.records ++ [f.checksum.msb]).length + 1 := by
    have hsize := frameEncode_length hf
    simp only [hbytes, List.length_append, List.length_cons, List.length_nil] at hsize ⊢
    simp only [remOf, Config.bodyExtra]
    omega
  rw [hbytes]
  exact consumeBytes_candidate _ _ _ _ hst hbuf hlen

/-- Settles O15: the frame's last byte completes the candidate, whose decode is the frame. -/
theorem frameRowIsReceivedAndDelivered : Obligations.FrameRowIsReceivedAndDelivered := by
  intro s f hst hbuf hh hf
  rw [hst, hbuf]
  exact (consumeBytes_frameEncode hf hst hbuf).trans (complete_ok _ f (frameDecode_frameEncode hf) hh)

/-- Settles O17: a record has the number of bytes its length byte says, and at least the two of its header. -/
theorem recordRowIsCollected : Obligations.RecordRowIsCollected := by
  intro s r hst hr hlen
  have hbytes : r.bytes.length = r.length.toNat := RawRecord.bytes_length (r.wellFormed_iff.1 hr).1
  rw [← hbytes] at hlen ⊢
  exact consumeBytes_body r.bytes s hst hlen (by simp [RawRecord.bytes])

/-- Settles O18: the second byte of the pair brings `rem` to 0. -/
theorem checksumPairEndsTheCandidate : Obligations.ChecksumPairEndsTheCandidate := by
  intro s x y hst hr
  have hck : exec (.ck x y) s =
      complete { s with buf := s.buf ++ [x, y], rem := 0, frameOk := false, errCode := 0 } :=
    consumeBytes_completes [x] y hst hr
  exact ⟨fun f hd hh => hck.trans (complete_ok _ f hd hh), fun e hd => hck.trans (complete_err _ e hd)⟩

/-- Settles O19: received bytes keep the invariant and stop only for a handler that never returns; the formats are
bytes received. -/
theorem anyBytesAreConsumed : Obligations.AnyBytesAreConsumed := by
  intro s w hi hh
  have consumed (u : List Byte) : ∃ t : State, consumeBytes u s = .next t ∧ t.Inv := by
    obtain ⟨hinv, ⟨t, ht⟩ | ⟨-, hnever⟩⟩ := consumeBytes_inv u s hi
    · exact ⟨t, ht, hinv t ht⟩
    · cases hh _ hnever
  exact ⟨consumed w, fun f => consumed (frameEncode f), fun r => consumed r.bytes, fun x y => consumed [x, y]⟩

end Sys2Proof.Machine

/-! SUPPORT. The family of spec/40_synchronizer.md: the rows of the synchronizer, the answers of the byte source, whole
streams, and the loop. -/

namespace Sys2Proof.Machine

/-! ### The status outputs of a run of bytes -/

theorem clearStatus_eq_self {s : State} (hok : s.frameOk = false) (hec : s.errCode = 0) : s.clearStatus = s := by
  rw [State.clearStatus, State.setStatus, ← hok, ← hec]

/-- Each consume step clears the status outputs first, so bytes do not see the ones before them (R27). -/
theorem consumeBytes_clearStatus {w : List Byte} (hw : w ≠ []) (s : State) :
    consumeBytes w s.clearStatus = consumeBytes w s := by
  cases w with
  | nil => exact absurd rfl hw
  | cons v w => rfl

/-! ### Hunting -/

/-- A byte that is not the first magic byte leaves a hunting block as it is (R65). -/
theorem consumeByte_miss {v : Byte} (hv : v ≠ Config.sync0) {s : State} (hst : s.st = .awaitSync0) :
    consumeByte v s = .next { s with buf := [] } := by
  rw [consumeByte_awaitSync0 v s hst, if_neg hv]

/-- So does a run of them, of any length (R65). -/
theorem consumeBytes_misses {w : List Byte} (hw : ∀ v ∈ w, v ≠ Config.sync0) {s : State} (hst : s.st = .awaitSync0)
    (hbuf : s.buf = []) : consumeBytes w s.clearStatus = .next s.clearStatus := by
  induction w with
  | nil => rfl
  | cons v w ih =>
    obtain ⟨hv, hw⟩ := List.forall_mem_cons.1 hw
    have hmiss : consumeByte v s.clearStatus = .next s.clearStatus := by
      rw [consumeByte_miss (s := s.clearStatus) hv hst, ← hbuf]
      rfl
    rw [consumeBytes_clearStatus (List.cons_ne_nil v w), consumeBytes_cons, hmiss]
    exact ih hw

/-- Settles O1: each row where R56 selects it, and the run of misses by induction on its bytes. -/
theorem huntingForTheFirstMagicByte : Obligations.HuntingForTheFirstMagicByte := by
  intro s hst
  refine ⟨whenSelected_pos (decide_eq_true hst) _, fun v hv => ?_, fun hbuf hok hec w hw => ?_⟩
  · have hrow : exec (.sync0Miss v) s = consumeByte v s :=
      exec_of_decodeStream v s _ (by rw [hst]; exact if_neg hv)
    rw [hrow, consumeByte_miss hv hst]
  · have hrun := consumeBytes_misses hw hst hbuf
    rwa [clearStatus_eq_self hok hec] at hrun

/-- Settles O2: each row where R56 selects it. -/
theorem huntingForTheSecondMagicByte : Obligations.HuntingForTheSecondMagicByte := fun _ hst =>
  ⟨whenSelected_pos (decide_eq_true hst) _, fun _ hv => whenSelected_pos (decide_eq_true ⟨hst, hv⟩) _⟩

/-- Settles O3: each row where R56 selects it. -/
theorem descriptorAndLengthBytesAreRecorded : Obligations.DescriptorAndLengthBytesAreRecorded := fun _ _ =>
  ⟨fun hst => whenSelected_pos (decide_eq_true hst) _, fun hst => whenSelected_pos (decide_eq_true hst) _⟩

/-! ### The body -/

/-- BODY.LAST where R56 selects it: COMPLETE on the buffer with the last byte (R70, R71). -/
theorem exec_bodyLast {s : State} (v : Byte) (hst : s.st = .awaitBody) (hr : s.rem = 1) :
    exec (.bodyLast v) s = complete { s with buf := s.buf ++ [v], rem := 0 } :=
  whenSelected_pos (decide_eq_true ⟨hst, hr⟩) _

/-- Fewer bytes than `rem`, none included, are collected and counted down (R70). -/
theorem consumeBytes_collected {w : List Byte} {s : State} (hst : s.st = .awaitBody) (hlen : w.length < s.rem) :
    consumeBytes w s.clearStatus = .next { s.clearStatus with buf := s.buf ++ w, rem := s.rem - w.length } := by
  by_cases hw : w = []
  · rw [hw, consumeBytes_nil, List.append_nil, List.length_nil, Nat.sub_zero]
    rfl
  · exact consumeBytes_body w s.clearStatus hst hlen hw

/-- The bytes after a length byte find `rem = L + 1` (R69). -/
theorem consumeBytes_lengthByte (L : Byte) (w : List Byte) {s : State} (hst : s.st = .awaitLength) :
    consumeBytes (L :: w) s = consumeBytes w
      ({ s with buf := s.buf ++ [L], rem := L.toNat + 1, st := .awaitBody } : State).clearStatus := by
  have hlength := consumeByte_awaitLength L s.clearStatus hst
  rw [consumeBytes_cons, hlength]
  rfl

/-- Settles O4: the rows where R56 selects them; `L` bytes are one fewer than `rem` counts, and one more brings it
to 0. -/
theorem bodyBytesAreCountedDown : Obligations.BodyBytesAreCountedDown := by
  refine ⟨fun s v hst hr => whenSelected_pos (decide_eq_true ⟨hst, hr⟩) _, fun s v hst hr => exec_bodyLast v hst hr,
    fun s L w x hst hlen => ⟨?_, ?_, fun hbuf => ?_⟩⟩
  · rw [consumeBytes_lengthByte L w hst, consumeBytes_collected rfl (by simp [hlen])]
    simp [hlen, State.clearStatus, State.setStatus]
  · rw [List.cons_append, consumeBytes_lengthByte L (w ++ [x]) hst, consumeBytes_completes w x rfl (by simp [hlen])]
    simp [exec, execComplete, State.clearStatus, State.setStatus]
  · simp only [List.length_append, List.length_cons, List.length_nil, hbuf, hlen]
    omega

/-- Settles O5: the last byte completes the candidate, and COMPLETE delivers it or logs its error. -/
theorem lastBodyByteEndsTheFrame : Obligations.LastBodyByteEndsTheFrame := by
  intro s v hst hr
  rw [exec_bodyLast v hst hr]
  exact ⟨fun f hd hh => complete_ok _ f hd hh, fun e hd => complete_err _ e hd⟩

/-- Settles O8: the handler that returns, COMPLETE of a candidate that decodes, the handler that does not return. -/
theorem handlerIsGivenTheFrameAndItsDispatch : Obligations.HandlerIsGivenTheFrameAndItsDispatch := fun s =>
  ⟨fun d hh => invokeHandler_returns d s hh, fun f hd hh => complete_ok s f hd hh,
    fun d hn => invokeHandler_never d s hn⟩

/-! ### The byte source and the step -/

/-- Settles O10: READ passes its three guards; the other two answers have one arm each. -/
theorem sourceAnswersTakeEffect : Obligations.SourceAnswersTakeEffect := fun _ =>
  ⟨fun _ hbs hq hlen => (if_neg hbs).trans ((if_neg (not_not.2 hq)).trans (if_neg (Nat.not_lt.2 hlen))), rfl, rfl⟩

/-- A read that gets the answer `x` and leaves the source with `r` (R75). -/
theorem step_of_nextAnswer {s : State} (hs : s.Streaming) (hq : s.rxq = []) {src r : List SourceAnswer}
    {x : SourceAnswer} (hsrc : s.source = src) (h : nextAnswer s.cfg.rxChunk src = (x, r)) :
    step s = .next (afterAnswer ({ s with source := r } : State).clearStatus x) := by
  rw [step_afterAnswer hs hq, hsrc, h]

theorem nextAnswer_bytes_of_le {chunk : Nat} {bs : List Byte} (h : bs.length ≤ chunk) (r : List SourceAnswer) :
    nextAnswer chunk (.bytes bs :: r) = (.bytes bs, r) := by
  rw [nextAnswer, if_pos h, List.take_of_length_le h]

theorem nextAnswer_bytes_of_lt {chunk : Nat} {bs : List Byte} (h : chunk < bs.length) (r : List SourceAnswer) :
    nextAnswer chunk (.bytes bs :: r) = (.bytes (bs.take chunk), .bytes (bs.drop chunk) :: r) := by
  rw [nextAnswer, if_neg (Nat.not_le.2 h)]

/-- Settles O12: the step is the read, by what the source has next. -/
theorem emptyQueueMeansARead : Obligations.EmptyQueueMeansARead := by
  intro s hs hq _
  refine ⟨fun hsrc => ?_, fun r hsrc => ?_, fun r hsrc => ?_, fun bs r _ hlen hsrc => ?_, fun bs r hlen hsrc => ?_⟩
  · rw [step_of_nextAnswer hs hq hsrc rfl, hsrc]
    rfl
  · exact step_of_nextAnswer hs hq hsrc rfl
  · exact step_of_nextAnswer hs hq hsrc rfl
  · exact step_of_nextAnswer hs hq hsrc (nextAnswer_bytes_of_le hlen r)
  · exact step_of_nextAnswer hs hq hsrc (nextAnswer_bytes_of_lt hlen r)

/-- Settles O13, by induction on the steps: each takes one timeout from the source and touches nothing else. -/
theorem timeoutsHoldAnIncompleteFrame : Obligations.TimeoutsHoldAnIncompleteFrame := by
  intro s k n hs hq hok hec
  induction k with
  | zero => rw [Nat.zero_add, run_zero]
  | succ k ih =>
    have htimeout : step { s with source := List.replicate (k + 1 + n) .timeout } =
        .next { s with source := List.replicate (k + n) .timeout } := by
      rw [Nat.succ_add, List.replicate_succ,
        step_of_nextAnswer (s := { s with source := .timeout :: List.replicate (k + n) .timeout }) hs hq rfl rfl]
      exact congrArg Host.Outcome.next
        (clearStatus_eq_self (s := { s with source := List.replicate (k + n) .timeout }) hok hec)
    rw [run_succ, htimeout, andThen_next, ih]

/-- Settles O44: the popped byte is consumed, which is what the row the decoder selects for it does. -/
theorem stepRunsTheSelectedRow : Obligations.StepRunsTheSelectedRow := by
  intro s v rest i hr hq hd
  rw [hq, decode_stream] at hd
  rw [step_consume s v rest hr hq]
  exact (exec_of_decodeStream v ({ s with rxq := rest } : State).clearStatus i hd).symm

/-! ### Frames on the stream -/

/-- A handler that returns from every invocation returns from the next one. -/
theorem handlerReturns_of_forall {s : State} (hh : ∀ h ∈ s.handlerAnswers, h = .returns) : s.HandlerReturns := by
  intro hn
  cases hh _ (List.mem_of_mem_head? hn)

end Sys2Proof.Machine

namespace Sys2Proof

/-- One record is no longer than all the records of its payload together (R49). -/
theorem payloadLength_gt_of_mem {r : RawRecord} {rs : List RawRecord} (hr : r ∈ rs) :
    r.length.toNat < payloadLength rs := by
  have hsum := List.le_sum_of_mem (List.mem_map_of_mem (f := fun r : RawRecord => r.length.toNat) hr)
  rw [payloadLength]
  omega

/-- The bytes of a well-formed frame that starts with the magic bytes are the encoding of a well-formed RawFrame: as
its records fit a payload, none is longer than a record may be (R52, R54, R59). -/
theorem WellFormedFrame.exists_rawFrame {w : List Byte} (hw : WellFormedFrame w) (h0 : byteAt w 0 = Config.sync0)
    (h1 : byteAt w 1 = Config.sync1) : ∃ f : RawFrame, f.wellFormed = true ∧ frameEncode f = w := by
  obtain ⟨s0, s1, c, L, a, b, rs, rfl, htile, hL, hck⟩ := hw
  refine ⟨⟨⟨s0, s1, c⟩, L, rs, ⟨a, b⟩⟩, ?_, rfl⟩
  have hrec : ∀ r ∈ rs, r.wellFormed = true := by
    intro r hr
    have hlt := payloadLength_gt_of_mem hr
    have hbyte := L.isLt
    exact r.wellFormed_iff.2 ⟨htile r hr, by omega⟩
  exact (RawFrame.wellFormed_iff _).2 ⟨h0, h1, hrec, hL, hck⟩

end Sys2Proof

namespace Sys2Proof.Machine

/-- Settles O14: the garbage leaves the block hunting, and the bytes after it are received as the FRAME row is. -/
theorem resynchronizationDeliversTheFrame : Obligations.ResynchronizationDeliversTheFrame := by
  intro s g w hst hbuf hh hg hw h0 h1
  obtain ⟨f, hf, rfl⟩ := hw.exists_rawFrame h0 h1
  refine ⟨f, frameDecode_frameEncode hf, ?_⟩
  have hne : g ++ frameEncode f ≠ [] := by simp [frameEncode, RawFrame.coveredBytes]
  rw [← consumeBytes_clearStatus hne, consumeBytes_append, consumeBytes_misses hg hst hbuf, andThen_next]
  exact frameRowIsReceivedAndDelivered s.clearStatus f hst hbuf hh hf

/-- Back-to-back frames received while hunting: one delivery each, in order, nothing logged, and hunting again (R80). -/
theorem consumeBytes_frames {fs : List RawFrame} (hfs : ∀ f ∈ fs, f.wellFormed = true) {s : State}
    (hst : s.st = .awaitSync0) (hbuf : s.buf = []) (hh : ∀ h ∈ s.handlerAnswers, h = .returns) :
    ∃ t : State, consumeBytes (fs.flatMap frameEncode) s = .next t
      ∧ t.out = s.out ++ fs.map (deliver s.cfg.catalog) ∧ t.log = s.log ∧ t.st = .awaitSync0 ∧ t.buf = [] := by
  induction fs generalizing s with
  | nil => exact ⟨s, rfl, (List.append_nil _).symm, rfl, hst, hbuf⟩
  | cons f fs ih =>
    obtain ⟨hf, hfs⟩ := List.forall_mem_cons.1 hfs
    have hfirst := frameRowIsReceivedAndDelivered s f hst hbuf (handlerReturns_of_forall hh) hf
    obtain ⟨t, ht, hout, hrest⟩ := ih hfs (s :=
      { s with
        cat := f.header.setDescriptor, rem := 0, out := s.out ++ [deliver s.cfg.catalog f],
        handlerAnswers := s.handlerAnswers.tail,
        a := 0, b := 0, off := 0, recs := [], frameOk := true, errCode := 0 })
      hst hbuf fun h hmem => hh h (List.mem_of_mem_tail hmem)
    refine ⟨t, ?_, by rw [hout, List.map_cons, List.append_assoc]; rfl, hrest⟩
    rw [List.flatMap_cons, consumeBytes_append]
    exact (congrArg (andThen · _) hfirst).trans ht

/-- The first bytes of a header, received while hunting, stand in the buffer (R64, R66, R68, R69). -/
theorem consumeBytes_headerPrefix {u : List Byte} {c L : Byte} (hu : u <+: [Config.sync0, Config.sync1, c, L])
    {s : State} (hst : s.st = .awaitSync0) (hbuf : s.buf = []) :
    ∃ t : State, consumeBytes u s = .next t ∧ t.buf = u := by
  obtain ⟨st, rem, buf, cat, a, b, off, recs, rxq, ok, ec, out, log, src, ha, rr, calls, ret, cfg⟩ := s
  subst hst hbuf
  have hcases := (List.mem_inits _ _).2 hu
  simp only [List.inits, List.map_cons, List.map_nil, List.mem_cons, List.not_mem_nil, or_false] at hcases
  rcases hcases with rfl | rfl | rfl | rfl | rfl <;> exact ⟨_, rfl, rfl⟩

/-- Any bytes of a frame but all of them, received while hunting, stand in the buffer: a part of the header, or the
header and fewer bytes than it makes `rem` count (R80). -/
theorem consumeBytes_framePrefix {f : RawFrame} (hf : f.wellFormed = true) {u v : List Byte}
    (huv : frameEncode f = u ++ v) (hv : v ≠ []) {s : State} (hst : s.st = .awaitSync0) (hbuf : s.buf = []) :
    ∃ t : State, consumeBytes u s = .next t ∧ t.buf = u := by
  obtain ⟨h0, h1, -, -, -⟩ := f.wellFormed_iff.1 hf
  have hbytes : frameEncode f = [Config.sync0, Config.sync1, f.header.setDescriptor, f.declaredLength]
      ++ (recordsBytes f.records ++ f.checksum.bytes) := by
    simp [frameEncode, RawFrame.coveredBytes, h0, h1]
  have hsize := frameEncode_length hf
  rw [huv] at hbytes hsize
  rcases List.append_eq_append_iff.1 hbytes with ⟨x, hhead, -⟩ | ⟨x, rfl, -⟩
  · exact consumeBytes_headerPrefix ⟨x, hhead.symm⟩ hst hbuf
  · have hlen : x.length < remOf f.declaredLength := by
      have hpos := List.length_pos_iff.2 hv
      simp only [List.length_append, List.length_cons, List.length_nil] at hsize
      simp only [remOf, Config.bodyExtra]
      omega
    rw [consumeBytes_append, consumeBytes_header _ _ hst hbuf, andThen_next]
    exact ⟨_, consumeBytes_collected (s := { s with
      st := .awaitBody, buf := [Config.sync0, Config.sync1, f.header.setDescriptor, f.declaredLength],
      cat := f.header.setDescriptor, rem := remOf f.declaredLength }) rfl hlen, rfl⟩

/-- Settles O16: the frames are delivered one after another, and the block that hunts after them collects the bytes of
the next one. -/
theorem backToBackFramesAreAllDelivered : Obligations.BackToBackFramesAreAllDelivered := by
  intro s fs hst hbuf hh hfs
  obtain ⟨t, ht, hout, hlog, hst', hbuf'⟩ := consumeBytes_frames hfs hst hbuf hh
  refine ⟨⟨t, ht, hout, hlog, hst', hbuf'⟩, fun f u v hf huv hv => ?_⟩
  rw [consumeBytes_append, ht, andThen_next]
  exact consumeBytes_framePrefix hf huv hv hst' hbuf'

/-! ### The loop -/

/-- What each step of the loop keeps: the invariant, no direct call, and a handler that returns (R78). -/
structure State.Looping (s : State) : Prop where
  inv : s.Inv
  noCalls : s.calls = []
  returns : ∀ h ∈ s.handlerAnswers, h = .returns

@[simp] theorem afterAnswer_calls (s : State) (x : SourceAnswer) : (afterAnswer s x).calls = s.calls := by
  cases x <;> rfl

@[simp] theorem afterAnswer_handlerAnswers (s : State) (x : SourceAnswer) :
    (afterAnswer s x).handlerAnswers = s.handlerAnswers := by cases x <;> rfl

/-- Popping a byte keeps the invariant (R20, R32). -/
theorem State.Inv.pop {s : State} {v : Byte} {rest : List Byte} (hi : s.Inv) (hq : s.rxq = v :: rest) :
    ({ s with rxq := rest } : State).Inv := by
  have hlen : rest.length ≤ s.cfg.rxChunk := by
    have hqueue := hi.queue
    rw [hq, List.length_cons] at hqueue
    omega
  exact ⟨hi.shape, hi.status, hlen, hi.chunk, hi.catalog⟩

/-- A step of the loop answers, and uses up handler answers at most: it is a reset, a read, or a consume step, which
could stop for the handler alone. -/
theorem step_answers_of_looping {s : State} (hs : s.Looping) :
    ∃ t : State, step s = .next t ∧ t.calls = s.calls ∧ t.handlerAnswers <:+ s.handlerAnswers := by
  rcases Bool.eq_false_or_eq_true s.resetReq with hr | hr
  · exact ⟨_, step_reset s hr, rfl, List.suffix_rfl⟩
  cases hq : s.rxq with
  | nil =>
    refine ⟨_, step_afterAnswer ⟨hr, hs.noCalls⟩ hq, afterAnswer_calls _ _, ?_⟩
    rw [afterAnswer_handlerAnswers]
    exact List.suffix_rfl
  | cons v rest =>
    rw [step_consume s v rest hr hq]
    obtain ⟨-, ⟨t, ht⟩ | ⟨-, hnever⟩⟩ := consumeByte_inv v _ (clearStatus_inv _ (hs.inv.pop hq))
    · obtain ⟨hha, hcalls, -⟩ := consumeByte_frame v _ t ht
      exact ⟨t, ht, hcalls, hha⟩
    · exact absurd hnever (handlerReturns_of_forall hs.returns)

/-- So every step of the loop leads back into it. -/
theorem step_looping {s : State} (hs : s.Looping) : ∃ t : State, step s = .next t ∧ t.Looping := by
  obtain ⟨t, ht, hcalls, hha⟩ := step_answers_of_looping hs
  exact ⟨t, ht, everyStepKeepsTheInvariant s t hs.inv ht, hcalls.trans hs.noCalls,
    fun h hmem => hs.returns h (hha.subset hmem)⟩

/-- A property from which every step answers a state that has it again makes every run safe. -/
theorem safe_of_progress {P : State → Prop} (hP : ∀ s, P s → ∃ t, step s = .next t ∧ P t) {s : State} (hs : P s) :
    Safe s := by
  intro k
  induction k generalizing s with
  | zero => exact ⟨s, rfl⟩
  | succ k ih =>
    obtain ⟨t, ht, hPt⟩ := hP s hs
    rw [run_succ, ht, andThen_next]
    exact ih hPt

/-- Settles O51: every step leads back into the loop. -/
theorem theLoopHasNoExit : Obligations.TheLoopHasNoExit := fun _ hi hc hh =>
  safe_of_progress (fun _ => step_looping) (State.Looping.mk hi hc hh)

end Sys2Proof.Machine

/-! SUPPORT. The family of spec/41_checksum.md: the running sums, their closed form, and the changes they detect. -/

namespace Sys2Proof

/-! ### The step of the running sums -/

theorem csumStep_fst_toNat (ab : Byte × Byte) (v : Byte) :
    (csumStep ab v).1.toNat = (ab.1.toNat + v.toNat) % 256 := BitVec.toNat_add _ _

theorem csumStep_snd_toNat (ab : Byte × Byte) (v : Byte) :
    (csumStep ab v).2.toNat = (ab.2.toNat + (csumStep ab v).1.toNat) % 256 := BitVec.toNat_add _ _

/-- Both sums can be undone: the new `a` gives back the old `a`, and with it the new `b` the old `b` (R82). -/
theorem csumStep_left_injective (v : Byte) : Function.Injective (csumStep · v) := by
  rintro ⟨a, b⟩ ⟨c, d⟩ h
  obtain ⟨ha, hb⟩ := Prod.mk.inj h
  obtain rfl : a = c := add_right_cancel ha
  obtain rfl : b = d := add_right_cancel hb
  rfl

/-- So sums that differ still differ after any further bytes. -/
theorem foldl_csumStep_injective (w : List Byte) : Function.Injective (w.foldl csumStep) := by
  induction w with
  | nil => exact Function.injective_id
  | cons v w ih => exact ih.comp (csumStep_left_injective v)

/-- Two bytes that give the same sums in either order are equal: the orders give the same `a`, and values of `b` that
differ by the difference of the bytes (R86). -/
theorem eq_of_csumStep_comm {ab : Byte × Byte} {x y : Byte}
    (h : csumStep (csumStep ab x) y = csumStep (csumStep ab y) x) : x = y := by
  obtain ⟨a, b⟩ := ab
  have hb : b + (a + x) + (a + x + y) = b + (a + y) + (a + y + x) := (Prod.mk.inj h).2
  rw [add_right_comm a y x] at hb
  exact add_left_cancel (add_left_cancel (add_right_cancel hb))

/-! ### The closed form of the sums -/

theorem map_byteAt_range (w : List Byte) : (List.range w.length).map (byteAt w) = w :=
  List.ext_getElem (by simp) (by simp +contextual [byteAt])

/-- The sum of R85 whose `i`th byte has the weight `k - i`. -/
def weightedSum (w : List Byte) : Nat :=
  ((List.range w.length).map fun i => (w.length - i) * (byteAt w i).toNat).sum

/-- A byte more adds 1 to the weight of each byte before it, and has the weight 1 itself. -/
theorem weightedSum_snoc (w : List Byte) (v : Byte) :
    weightedSum (w ++ [v]) = weightedSum w + ((w ++ [v]).map BitVec.toNat).sum := by
  have hlast : byteAt (w ++ [v]) w.length = v := byteAt_append_right w [v] 0
  have hbefore : (List.range w.length).map (fun i => (w.length + 1 - i) * (byteAt (w ++ [v]) i).toNat)
      = (List.range w.length).map fun i => (w.length - i) * (byteAt w i).toNat + (byteAt w i).toNat := by
    refine List.map_congr_left fun i hi => ?_
    have hi := List.mem_range.1 hi
    rw [byteAt_append_left _ _ hi, Nat.succ_sub hi.le, Nat.succ_mul]
  have hbytes : (List.range w.length).map (fun i => (byteAt w i).toNat) = w.map BitVec.toNat := by
    simpa [Function.comp_def] using congrArg (List.map BitVec.toNat) (map_byteAt_range w)
  simp [weightedSum, List.range_succ, hlast, hbefore, hbytes, List.sum_map_add, Nat.add_assoc]

theorem csum_fst_toNat (w : List Byte) : (csum w).1.toNat = (w.map BitVec.toNat).sum % 256 := by
  induction w using List.reverseRecOn with
  | nil => rfl
  | append_singleton w v ih => simp [csum_snoc, csumStep_fst_toNat, ih]

theorem csum_snd_toNat (w : List Byte) : (csum w).2.toNat = weightedSum w % 256 := by
  induction w using List.reverseRecOn with
  | nil => rfl
  | append_singleton w v ih =>
    rw [csum_snoc, csumStep_snd_toNat, ← csum_snoc, csum_fst_toNat, ih, ← Nat.add_mod, weightedSum_snoc]

/-! ### What the sums detect -/

/-- A zero byte at the front leaves the sums at their start values. -/
theorem csum_zero_cons (w : List Byte) : csum (0 :: w) = csum w := rfl

/-- Settles O30: the sums after the exchanged bytes differ, and bytes that follow keep them apart; `00` and `80` two
positions apart are exchanged unseen; zero bytes at the front leave the sums as they are. -/
theorem checksumDetectsAdjacentSwaps : Obligations.ChecksumDetectsAdjacentSwaps := by
  refine ⟨fun p q x y hxy h => hxy ?_, ⟨0x00, 0x00, 0x80, by decide, by decide⟩, fun n w => ?_⟩
  · rw [csum_append _ q, csum_append _ q, csum_append p, csum_append p] at h
    exact eq_of_csumStep_comm (foldl_csumStep_injective q h)
  · induction n with
    | zero => rfl
    | succ n ih => rw [List.replicate_succ, List.cons_append, csum_zero_cons, ih]

end Sys2Proof

namespace Sys2Proof.Machine

/-! ### The direct calls -/

theorem exec_csum (w : List Byte) (s : State) : exec (.csum w) s =
    .next { s with a := (csum w).1, b := (csum w).2, ret := some (.sums (csum w).1 (csum w).2) } := rfl

theorem exec_csumStep (v : Byte) (s : State) : exec (.csumStep v) s =
    .next { s with
      a := (csumStep (s.a, s.b) v).1, b := (csumStep (s.a, s.b) v).2,
      ret := some (.sums (csumStep (s.a, s.b) v).1 (csumStep (s.a, s.b) v).2) } := rfl

theorem exec_csumCheck (w : List Byte) (s : State) : exec (.csumCheck w) s =
    .next { s with
      a := (csum (covered w)).1, b := (csum (covered w)).2, ret := some (.check (csumCheck w)) } := rfl

/-- Settles O26: both sums in closed form, by induction from the last byte. -/
theorem checksumClosedForm : Obligations.ChecksumClosedForm := fun s w =>
  ⟨_, _, exec_csum w s, csum_fst_toNat w, csum_snd_toNat w⟩

/-- Settles O25: CSUM.STEP adds to each accumulator, and a byte more is a step more. -/
theorem checksumStepsAccumulate : Obligations.ChecksumStepsAccumulate := by
  refine ⟨fun s v => ⟨_, _, exec_csumStep v s, csumStep_fst_toNat _ _, ?_⟩, csum_nil, csum_snoc⟩
  rw [csumStep_snd_toNat, csumStep_fst_toNat]

/-- Settles O27: what stands before the last two bytes is covered, and these two are compared with its sums. -/
theorem checksumCheckComparesBothBytes : Obligations.ChecksumCheckComparesBothBytes := by
  intro s w x y
  refine ⟨(csum w).1, (csum w).2, rfl, ?_⟩
  rw [exec_csumCheck, covered_pair, csumCheck_pair]
  simp only [Prod.ext_iff]

end Sys2Proof.Machine

/-! SUPPORT. The family of spec/42_frame_codec.md: the record parser, FRAME.DECODE, FRAME.ENCODE and the round trip. -/

namespace Sys2Proof

/-! ### What FRAME.DECODE answers -/

/-- What a decoded frame says of the input: the input is the bytes the frame stores, with the surplus of the payload
region between the records and the checksum; the records tile the declared payload; and the checksum covers all that
stands before it (R98, R99). -/
theorem frameDecode_sound {w : List Byte} {f : RawFrame} (h : frameDecode w = .ok f) : ∃ surplus : List Byte,
    w = f.coveredBytes ++ surplus ++ f.checksum.bytes
      ∧ (∀ r ∈ f.records, r.Tiled)
      ∧ f.declaredLength.toNat = payloadLength f.records
      ∧ (f.checksum.msb, f.checksum.lsb) = csum (f.coveredBytes ++ surplus) := by
  obtain ⟨u, x, y, rfl, hlen, hck, hparse, hf⟩ := frameDecode_ok w f h
  obtain ⟨hL, htile, hrecs, -, -⟩ := recParse_sound _ _ hparse
  match u, hlen with
  | s0 :: s1 :: c :: L :: P, _ =>
    obtain ⟨header, declared, records, checksum⟩ := f
    cases hf
    have htake : P.take (payloadLength records - 1) = recordsBytes records := hrecs
    have hbytes : s0 :: s1 :: c :: L :: P
        = [s0, s1, c, L] ++ recordsBytes records ++ P.drop (payloadLength records - 1) := by
      rw [← htake, List.append_assoc, List.take_append_drop]
      rfl
    exact ⟨_, congrArg (· ++ [x, y]) hbytes, htile, hL, hck.trans (congrArg csum hbytes)⟩

/-- The four bytes before the body are stored as they stand in the input (R92, R93). -/
theorem frameDecode_header {w : List Byte} {f : RawFrame} (h : frameDecode w = .ok f) :
    f.header = ⟨byteAt w 0, byteAt w 1, byteAt w 2⟩ ∧ f.declaredLength = byteAt w 3 := by
  obtain ⟨surplus, rfl, -⟩ := frameDecode_sound h
  exact ⟨rfl, rfl⟩

/-- The bytes before the checksum of a frame whose records tile its payload (R52). -/
theorem coveredBytes_length {f : RawFrame} (htile : ∀ r ∈ f.records, r.Tiled)
    (hL : f.declaredLength.toNat = payloadLength f.records) :
    f.coveredBytes.length = f.declaredLength.toNat + 3 := by
  have hrecs := recordsBytes_length htile
  simp only [RawFrame.coveredBytes, List.length_append, List.length_cons, List.length_nil]
  omega

/-- The length check comes first (R90). -/
theorem frameDecode_of_short {w : List Byte} (h : w.length < 6) :
    frameDecode w = .err (.insufficientBytes 6 w.length) := if_pos h

/-- The checksum check comes next, before any look at the structure (R91). -/
theorem frameDecode_of_wrong_checksum {w : List Byte} {x y : Byte} (hlen : 4 ≤ w.length) (hck : (x, y) ≠ csum w) :
    frameDecode (w ++ [x, y]) = .err .badChecksum := by
  have hlong : ¬ (w ++ [x, y]).length < Config.minFrame := by simp [Config.minFrame, hlen]
  rw [frameDecode, if_neg hlong, csumCheck_pair, decide_eq_false hck, if_neg Bool.false_ne_true]

/-! ### One damaged byte -/

/-- Two values of a byte give two values of `a` (R82). -/
theorem csumStep_right_injective (ab : Byte × Byte) : Function.Injective (csumStep ab) :=
  fun _ _ h => add_left_cancel (Prod.mk.inj h).1

/-- A changed byte changes the sums: they differ after that byte, and bytes that follow keep them apart (R86). -/
theorem csum_set_ne {w : List Byte} {i : Nat} {v : Byte} (hi : i < w.length) (hv : v ≠ byteAt w i) :
    csum (w.set i v) ≠ csum w := by
  have hself : w.set i (byteAt w i) = w := by simp [byteAt, hi]
  rw [← congrArg csum hself]
  intro h
  simp only [List.set_eq_take_append_cons_drop, if_pos hi, csum_append, List.foldl_cons] at h
  exact hv (csumStep_right_injective _ (foldl_csumStep_injective _ h))

/-- Settles O29: a changed byte before the checksum changes the sums of the bytes before the checksum, and a changed
byte of the checksum is compared with sums that are as before. -/
theorem damagedByteGivesBadChecksum : Obligations.DamagedByteGivesBadChecksum := by
  intro w f h i v hi hv
  obtain ⟨u, x, y, rfl, hlen, hck, -, -⟩ := frameDecode_ok w f h
  simp only [List.length_append, List.length_cons, List.length_nil] at hi
  obtain hbody | rfl | rfl : i < u.length ∨ i = u.length ∨ i = u.length + 1 := by omega
  · rw [byteAt_append_left _ _ hbody] at hv
    rw [List.set_append_left _ _ hbody]
    exact frameDecode_of_wrong_checksum (by simpa using hlen) (hck.trans_ne (csum_set_ne hbody hv).symm)
  · have hx : v ≠ x := fun hvx => hv (hvx.trans (byteAt_append_right u [x, y] 0).symm)
    rw [List.set_append_right _ _ le_rfl, Nat.sub_self]
    exact frameDecode_of_wrong_checksum hlen fun hvy => hx (congrArg Prod.fst (hvy.trans hck.symm))
  · have hy : v ≠ y := fun hvy => hv (hvy.trans (byteAt_append_right u [x, y] 1).symm)
    rw [List.set_append_right _ _ (Nat.le_add_right _ 1), Nat.add_sub_cancel_left]
    exact frameDecode_of_wrong_checksum hlen fun hxv => hy (congrArg Prod.snd (hxv.trans hck.symm))

/-! ### A successful decode -/

/-- Settles O33: the input is the stored bytes with a surplus before the checksum, cut at `L + 3` and at `n - 2`. -/
theorem successfulDecodeIsSound : Obligations.SuccessfulDecodeIsSound := by
  intro w f h
  obtain ⟨surplus, hw, htile, hL, hck⟩ := frameDecode_sound h
  have hlen := coveredBytes_length htile hL
  have hcovered : slice w 0 (w.length - 2) = f.coveredBytes ++ surplus := by
    rw [hw]
    exact covered_pair _ _ _
  have hrecs : slice w 4 (f.declaredLength.toNat + 3) = recordsBytes f.records := by
    rw [hw, ← hlen, List.append_assoc, slice_append_left _ _ le_rfl]
    simp [slice, RawFrame.coveredBytes]
  refine ⟨?_, fun r hr => ?_, hL.symm, ?_, hrecs.symm, hck.trans (congrArg csum hcovered.symm)⟩
  · rw [hL, payloadLength]
    exact Nat.le_add_right 1 _
  · have hcounts : r.length.toNat = 2 + r.data.length := htile r hr
    exact ⟨by omega, hcounts⟩
  · rw [hw]
    simp only [Checksum.bytes, List.length_append, List.length_cons, List.length_nil, hlen]
    omega

/-! ### The round trip -/

/-- An input of exactly `L + 5` bytes has no surplus, so the frame's own bytes are all of it (R101). -/
theorem frameEncode_frameDecode {w : List Byte} {f : RawFrame} (h : frameDecode w = .ok f)
    (hlen : w.length = f.declaredLength.toNat + 5) : frameEncode f = w := by
  obtain ⟨surplus, rfl, htile, hL, -⟩ := frameDecode_sound h
  have hnone : surplus = [] := by
    rw [← List.length_eq_zero_iff]
    simp only [List.length_append, coveredBytes_length htile hL, Checksum.bytes, List.length_cons,
      List.length_nil] at hlen
    omega
  rw [hnone, List.append_nil]
  rfl

/-- A well-formed frame decodes to its fields, whose bytes are the frame (R101). -/
theorem WellFormedFrame.decodes {w : List Byte} (hw : WellFormedFrame w) :
    ∃ f : RawFrame, frameDecode w = .ok f ∧ frameEncode f = w := by
  obtain ⟨s0, s1, c, L, a, b, rs, rfl, htile, hL, hck⟩ := hw
  exact ⟨_, frameDecode_packed htile hL hck, rfl⟩

end Sys2Proof

namespace Sys2Proof.Machine

/-- Settles O34: the fields of a well-formed frame encode to it; an input of `L + 5` bytes has no surplus; and a
candidate of the synchronizer has that length, and starts with the magic bytes and the recorded category. -/
theorem decodeThenEncodeGivesTheBytesBack : Obligations.DecodeThenEncodeGivesTheBytesBack := by
  refine ⟨fun w hw => hw.decodes, fun w f h hlen => frameEncode_frameDecode h hlen, fun s v f hi hst hr h => ?_⟩
  obtain ⟨hlen, -⟩ := candidateHasDeclaredLengthPlusFive s v hi hst hr
  obtain ⟨hheader, hdeclared⟩ := frameDecode_header h
  obtain ⟨L, rest, hbuf, -, -⟩ := (bufShape_awaitBody hst).1 hi.shape
  rw [hbuf] at hheader hdeclared hlen
  refine ⟨frameEncode_frameDecode h ?_, ?_, ?_, ?_⟩
  · rw [hbuf, hlen, hdeclared]
    rfl
  all_goals rw [hheader]; rfl

/-! ### FRAME.DECODE and FRAME.ENCODE as calls -/

theorem exec_frameDecode (w : List Byte) (s : State) : exec (.frameDecode w) s =
    .next { s.decodeScratch w with ret := some (.frame (frameDecode w)) } := rfl

/-- A failed length check leaves the scratch alone (R90). -/
theorem decodeScratch_of_short {w : List Byte} (h : w.length < 6) (s : State) : s.decodeScratch w = s := if_pos h

/-- A failed checksum check leaves the sums it has compared (R91). -/
theorem decodeScratch_of_wrong_checksum {w : List Byte} {x y : Byte} (hlen : 4 ≤ w.length) (hck : (x, y) ≠ csum w)
    (s : State) : s.decodeScratch (w ++ [x, y]) = { s with a := (csum w).1, b := (csum w).2 } := by
  have hlong : ¬ (w ++ [x, y]).length < Config.minFrame := by simp [Config.minFrame, hlen]
  rw [State.decodeScratch, if_neg hlong, csumCheck_pair, decide_eq_false hck, if_neg Bool.false_ne_true, covered_pair]
  rfl

/-- Settles O31: the length check fails, or it passes and the checksum check fails. -/
theorem lengthThenChecksumAreChecked : Obligations.LengthThenChecksumAreChecked := by
  refine fun s w => ⟨fun hlen => ?_, fun x y hlen hck => ?_⟩
  · rw [exec_frameDecode, decodeScratch_of_short hlen, frameDecode_of_short hlen]
  · rw [exec_frameDecode, decodeScratch_of_wrong_checksum hlen hck, frameDecode_of_wrong_checksum hlen hck]

/-- Settles O32: the scratch is the four registers of R18 and R19. -/
theorem frameDecodeAnswersOnEveryInput : Obligations.FrameDecodeAnswersOnEveryInput := by
  intro s w
  obtain ⟨a, b, off, recs, hscratch⟩ := decodeScratch_eq s w
  exact ⟨a, b, off, recs, by rw [exec_frameDecode, hscratch]⟩

/-- Settles O35: the candidate of the declared length 0 has 5 bytes, which is too short for a frame. -/
theorem zeroLengthCandidateIsLogged : Obligations.ZeroLengthCandidateIsLogged := by
  intro s v hi hst hr hzero
  obtain ⟨hlen, -⟩ := candidateHasDeclaredLengthPlusFive s v hi hst hr
  have hfive : (s.buf ++ [v]).length = 5 := by rw [hlen, hzero]; rfl
  have hdecode : frameDecode (s.buf ++ [v]) = .err (.insufficientBytes 6 5) := by
    rw [frameDecode_of_short (by omega), hfive]
  rw [exec_bodyLast v hst hr]
  exact complete_err { s with buf := s.buf ++ [v], rem := 0 } _ hdecode

/-- Settles O39: ENCODE is the stored bytes, in the order of the fields. -/
theorem frameEncodeConcatenates : Obligations.FrameEncodeConcatenates := fun _ _ => rfl

end Sys2Proof.Machine

namespace Sys2Proof

/-! ### What REC.PARSE answers -/

theorem recParse_of_error {P : List Byte} {e : FrameError} (h : (recScan P).error = some e) : recParse P = .err e := by
  rw [recParse, h]

/-- A declared length other than 0 starts the loop after the length byte (R94, R97). -/
theorem recScan_of_length_ne_zero {P : List Byte} (h : (byteAt P 0).toNat ≠ 0) :
    recScan P = recLoop P (byteAt P 0).toNat (min (byteAt P 0).toNat P.length) (byteAt P 0).toNat 1 [] := if_neg h

/-- Records that end before `L`: the scan has taken them all and makes another pass, with `avail` bytes left of the
declared payload (R94). -/
theorem recScan_after_records {L : Byte} {rs : List RawRecord} {rest : List Byte} (htile : ∀ r ∈ rs, r.Tiled)
    (hL : payloadLength rs < L.toNat) : ∃ fuel : Nat, recScan (L :: recordsBytes rs ++ rest) =
      recLoop (L :: recordsBytes rs ++ rest) L.toNat
        (payloadLength rs + min (L.toNat - payloadLength rs) rest.length) (fuel + 1) (payloadLength rs) rs := by
  have hbytes := recordsBytes_length htile
  have hrecs := payloadLength_ge rs htile
  have hlim : min L.toNat (L :: recordsBytes rs ++ rest).length
      = payloadLength rs + min (L.toNat - payloadLength rs) rest.length := by
    simp only [List.length_append, List.length_cons]
    omega
  have hscan := recScan_of_length_ne_zero (P := L :: recordsBytes rs ++ rest) (show L.toNat ≠ 0 by omega)
  obtain ⟨fuel, hfuel⟩ : ∃ fuel : Nat, L.toNat = (fuel + 1) + rs.length := ⟨L.toNat - rs.length - 1, by omega⟩
  have hloop := recLoop_packed (L :: recordsBytes rs ++ rest) L.toNat
    (payloadLength rs + min (L.toNat - payloadLength rs) rest.length) rs (fuel + 1) 1 [] rest htile rfl (by omega)
    (by omega)
  rw [← hfuel, ← hlim, Nat.add_sub_cancel' (by simp [payloadLength])] at hloop
  rw [← hlim]
  exact ⟨fuel, hscan.trans hloop⟩

/-- The byte after the records is the length byte of the next one (R94). -/
theorem byteAt_after_records {rs : List RawRecord} (htile : ∀ r ∈ rs, r.Tiled) (L : Byte) (rest : List Byte) :
    byteAt (L :: recordsBytes rs ++ rest) (payloadLength rs) = byteAt rest 0 := by
  have hoff : payloadLength rs = (L :: recordsBytes rs).length + 0 := (recordsBytes_length htile).symm
  rw [hoff]
  exact byteAt_append_right _ _ _

/-- Settles O37: the pass after the records `rs` ends at the first of its three checks that fails. -/
theorem recordParserErrors : Obligations.RecordParserErrors := by
  refine ⟨fun rest => rfl, fun L rs rest htile hL avail havail => ?_⟩
  obtain ⟨fuel, hscan⟩ := recScan_after_records (rest := rest) htile hL
  rw [recLoop_succ, if_pos hL, byteAt_after_records htile, ← havail, Nat.add_sub_cancel_left] at hscan
  refine ⟨fun hfew => ?_, fun henough hsmall => ?_, fun henough hlong => ?_⟩ <;> apply recParse_of_error
  · rw [hscan, if_pos hfew]
  · rw [hscan, if_neg (by omega), if_pos hsmall]
  · rw [hscan, if_neg (by omega), if_neg (by omega), if_pos hlong]

/-- Each record the loop takes moves `off` by at least 2, and `off` does not pass `L` (R94). -/
theorem recLoop_two_per_record (P : List Byte) {L lim : Nat} (hlim : lim ≤ L) (fuel off : Nat) (acc : List RawRecord)
    (hacc : 2 * acc.length + 1 ≤ off) (hoff : off ≤ L) :
    2 * (recLoop P L lim fuel off acc).recs.length + 1 ≤ L := by
  induction fuel generalizing off acc with
  | zero => exact hacc.trans hoff
  | succ fuel ih =>
    rw [recLoop_succ]
    split_ifs with hmore hheader hsmall hlong
    · exact hacc.trans hoff
    · exact hacc.trans hoff
    · exact hacc.trans hoff
    · refine ih _ _ ?_ (by omega)
      rw [List.length_append, List.length_singleton]
      omega
    · exact hacc.trans hoff

/-- `L` is at most 255, so at most 127 records are found (R94). -/
theorem recScan_recs_length_le (P : List Byte) : (recScan P).recs.length ≤ 127 := by
  by_cases hzero : (byteAt P 0).toNat = 0
  · rw [recScan, if_pos hzero]
    exact Nat.zero_le _
  · have hbyte := (byteAt P 0).isLt
    have htwo := recLoop_two_per_record P (L := (byteAt P 0).toNat) (min_le_left _ P.length) (byteAt P 0).toNat 1 []
      le_rfl (by omega)
    rw [recScan_of_length_ne_zero hzero]
    omega

end Sys2Proof

namespace Sys2Proof.Machine

/-! ### REC.PARSE as a call -/

theorem exec_recParse (P : List Byte) (s : State) : exec (.recParse P) s =
    .next { s with off := (recScan P).off, recs := (recScan P).recs, ret := some (.records (recParse P)) } := rfl

/-- Settles O36: the scan takes the packed records and ends at `L`. -/
theorem packedRecordsAreParsedInOrder : Obligations.PackedRecordsAreParsedInOrder := by
  intro s L rs extra htile hL
  rw [exec_recParse, recScan_packed L rs extra htile hL, recParse_packed L rs extra htile hL]

/-- Settles O38: the scan's offset and records are written, and each record takes two bytes or more. -/
theorem recordParserAnswersOnEveryInput : Obligations.RecordParserAnswersOnEveryInput := fun s P =>
  ⟨_, _, exec_recParse P s, recScan_recs_length_le P⟩

end Sys2Proof.Machine

/-! SUPPORT. The family of spec/43_field_codec_dispatch.md: the offset table, subfield values, the field codec, and the
dispatch of records to the slots of their category. -/

namespace Sys2Proof

/-! ### The offset table -/

/-- Each subfield starts where those before it end (R109). -/
theorem offsetsFrom_getElem? (l : List Subfield) (o : Nat) {i : Nat} (hi : i < l.length) :
    (offsetsFrom o l)[i]? = some (o + need (l.take i)) := by
  induction l generalizing o i with
  | nil => exact absurd hi (Nat.not_lt_zero i)
  | cons sf l ih =>
    cases i with
    | zero => rfl
    | succ i =>
      have hrest := ih (o + sf.prim.size) (Nat.lt_of_succ_lt_succ hi)
      simpa [offsetsFrom, need, Nat.add_assoc] using hrest

theorem offsets_getElem? {layout : List Subfield} {i : Nat} (hi : i < layout.length) :
    (offsets layout)[i]? = some (need (layout.take i)) := by
  rw [offsets, offsetsFrom_getElem? layout 0 hi, Nat.zero_add]

@[simp] theorem offsets_length (layout : List Subfield) : (offsets layout).length = layout.length :=
  offsetsFrom_length layout 0

/-- One subfield more takes its size more (R109). -/
theorem need_take_succ {layout : List Subfield} {i : Nat} {sf : Subfield} (hsf : layout[i]? = some sf) :
    need (layout.take (i + 1)) = need (layout.take i) + sf.prim.size := by
  simp [need, List.take_add_one, hsf]

/-- The offset that follows the last subfield is NEED (R109). -/
theorem need_of_getLast? {layout : List Subfield} {o : Nat} {sf : Subfield} (ho : (offsets layout).getLast? = some o)
    (hsf : layout.getLast? = some sf) : need layout = o + sf.prim.size := by
  have hpos : 0 < layout.length := List.length_pos_of_mem (List.mem_of_getLast? hsf)
  rw [List.getLast?_eq_getElem?, offsets_length, offsets_getElem? (Nat.sub_lt hpos Nat.one_pos)] at ho
  rw [List.getLast?_eq_getElem?] at hsf
  rw [← Option.some.inj ho, ← need_take_succ hsf, Nat.sub_add_cancel hpos, List.take_length]

/-! ### Subfield values -/

/-- The two halves of the patterns of one byte or more (R111). -/
theorem two_mul_two_pow_bits {n : Nat} (hn : 0 < n) : 2 * 2 ^ (8 * n - 1) = 256 ^ n := by
  rw [← pow_succ', show 8 * n - 1 + 1 = 8 * n by omega, pow_mul]
  rfl

/-- The lower half of the patterns reads as itself (R111, G1). -/
theorem number_signed_of_lt {v : SubValue} (hk : v.kind = .i) (h : 2 * v.bits < 256 ^ v.size) :
    v.number = some (v.bits : Int) := by
  simp only [SubValue.number, hk, if_pos h]

/-- The upper half of the patterns reads as a negative number (R111, G1). -/
theorem number_signed_of_ge {v : SubValue} (hk : v.kind = .i) (h : 256 ^ v.size ≤ 2 * v.bits) :
    v.number = some ((v.bits : Int) - (256 ^ v.size : Nat)) := by
  simp only [SubValue.number, hk, if_neg (Nat.not_lt.2 h)]

/-! ### The field codec -/

theorem fieldDecode_of_lt_need {rt : RecordType} {r : RawRecord} (h : r.data.length < need rt.layout) :
    fieldDecode rt r = .err .fieldDecodeFailure := by
  have hsub := decodeSubfields_err rt.layout r.data 0 (Nat.zero_le _) (by omega)
  rw [fieldDecode, offsets, hsub]

theorem fieldDecode_of_need_le {rt : RecordType} {r : RawRecord} (h : need rt.layout ≤ r.data.length) :
    fieldDecode rt r = .ok
      { categoryId := rt.categoryId
        typeId := rt.typeId
        values := (rt.layout.zip (offsets rt.layout)).map fun p =>
          valueOf p.1.prim.kind (slice r.data p.2 (p.2 + p.1.prim.size)) } := by
  have hsub := decodeSubfields_ok rt.layout r.data 0 (by omega)
  rw [fieldDecode, offsets, hsub]

/-- What a successful decode has read (R110). -/
theorem fieldDecode_ok {rt : RecordType} {r : RawRecord} {t : TypedRecord} (h : fieldDecode rt r = .ok t) :
    t.typeId = rt.typeId ∧ decodeSubfields (rt.layout.zip (offsets rt.layout)) r.data = .ok t.values := by
  unfold fieldDecode at h
  split at h
  · cases h
  next vs hvs =>
    cases h
    exact ⟨rfl, hvs⟩

/-- Every subfield ends within NEED, so bytes after it are not looked at (R112). -/
theorem fieldDecode_append {rt : RecordType} {r : RawRecord} (h : need rt.layout ≤ r.data.length)
    (extra : List Byte) : fieldDecode rt { r with data := r.data ++ extra } = fieldDecode rt r := by
  have hlong : need rt.layout ≤ (r.data ++ extra).length := by rw [List.length_append]; omega
  rw [fieldDecode_of_need_le h, fieldDecode_of_need_le hlong]
  congr 2
  refine List.map_congr_left fun p hp => ?_
  have hend := offsetsFrom_bound rt.layout 0 p hp
  rw [slice_append_left _ _ (by omega)]

/-- The decoded values encode to the bytes they were read from: the slices are adjacent (R109, R113). -/
theorem encode_decodeSubfields {l : List Subfield} {o : Nat} {d : List Byte} {vs : List SubValue}
    (h : decodeSubfields (l.zip (offsetsFrom o l)) d = .ok vs) :
    vs.flatMap (fun v => beBytes v.size v.bits) = slice d o (o + need l) := by
  induction l generalizing o vs with
  | nil =>
    cases h
    simp [need, slice]
  | cons sf l ih =>
    simp only [offsetsFrom, List.zip_cons_cons, decodeSubfields] at h
    split_ifs at h
    split at h
    · cases h
    next vs' hrest =>
      cases h
      have hneed : o + need (sf :: l) = o + sf.prim.size + need l := by simp [need, Nat.add_assoc]
      rw [List.flatMap_cons, ih hrest, hneed, slice_split d (Nat.le_add_right o sf.prim.size) (Nat.le_add_right _ _)]
      exact congrArg (· ++ _) (beBytes_be _)

/-- What FIELD.ENCODE writes has the sizes of the values together (R113). -/
theorem fieldEncode_data_length (t : TypedRecord) :
    (fieldEncode t).data.length = (t.values.map fun v => v.size).sum := by
  simp [fieldEncode, beBytes_length]

theorem fieldEncode_length (t : TypedRecord) : (fieldEncode t).length = lengthByte (fieldEncode t).data.length := by
  rw [fieldEncode_data_length]
  rfl

/-- A length byte that fits is `2 + k` (R113). -/
theorem lengthByte_toNat {k : Nat} (hk : 2 + k < 256) : (lengthByte k).toNat = 2 + k := by
  rw [lengthByte, if_pos (show Config.recHdrLen + k < 256 from hk), BitVec.toNat_ofNat]
  exact Nat.mod_eq_of_lt hk

/-- Encoding the decode of a record of the type with no bytes beyond NEED gives the record back (R113). -/
theorem fieldEncode_fieldDecode {rt : RecordType} {r : RawRecord} {t : TypedRecord} (h : fieldDecode rt r = .ok t)
    (hdesc : r.descriptor = rt.typeId) (hdata : r.data.length = need rt.layout) (hr : r.Tiled) :
    fieldEncode t = r := by
  obtain ⟨htype, hvalues⟩ := fieldDecode_ok h
  have hbytes : (fieldEncode t).data = r.data := by
    rw [fieldEncode, encode_decodeSubfields hvalues, Nat.zero_add, ← hdata, slice_zero_length]
  have hlength : (fieldEncode t).length = r.length := by
    have hbyte := r.length.isLt
    apply BitVec.eq_of_toNat_eq
    rw [fieldEncode_length, hbytes, hr, lengthByte_toNat (by omega)]
  obtain ⟨length, descriptor, data⟩ := r
  exact congr (congr (congrArg RawRecord.mk hlength) (htype.trans hdesc.symm)) hbytes

/-! ### The dispatch of records -/

theorem dispatchOn_of_category {c : Catalog} {id : Byte} {k : Category} (h : c.category id = some k)
    (recs : List RawRecord) :
    dispatchOn c id recs = .aggregate k.id (k.slots.map (fillSlot (indexRecords recs))) := by
  rw [dispatchOn, h]

theorem dispatchOn_of_no_category {c : Catalog} {id : Byte} (h : c.category id = none) (recs : List RawRecord) :
    dispatchOn c id recs = .unrecognized id := by
  rw [dispatchOn, h]

/-- A slot looks up its own type id alone (R115). -/
theorem fillSlot_congr {rt : RecordType} {m m' : List (Byte × RawRecord)}
    (h : mapGet rt.typeId m = mapGet rt.typeId m') : fillSlot m rt = fillSlot m' rt := by
  rw [fillSlot, fillSlot, h]

/-- Records that are dropped for their type id leave the lookup of the other type ids as it is (R114). -/
theorem mapGet_indexRecords_filter {k : Byte} {p : Byte → Prop} [DecidablePred p] (hk : p k) (rs : List RawRecord) :
    mapGet k (indexRecords (rs.filter fun r => p r.descriptor)) = mapGet k (indexRecords rs) := by
  rw [mapGet_indexRecords, mapGet_indexRecords, List.filter_filter]
  refine congrArg List.getLast? (List.filter_congr fun r _ => ?_)
  by_cases hr : r.descriptor = k
  · rw [hr, decide_eq_true hk, Bool.and_true]
  · rw [decide_eq_false hr, Bool.false_and]

/-- Settles O24: each slot finds the same last record, for its own type id is among those kept. -/
theorem unknownTypeIdsAreIgnored : Obligations.UnknownTypeIdsAreIgnored := by
  intro c f k hk
  rw [dispatch, dispatch, dispatchOn_of_category hk, dispatchOn_of_category hk]
  refine congrArg (DispatchResult.aggregate k.id) (List.map_congr_left fun rt hrt => fillSlot_congr ?_)
  exact mapGet_indexRecords_filter (p := (· ∈ k.slots.map RecordType.typeId)) (List.mem_map_of_mem hrt) f.records

end Sys2Proof

namespace Sys2Proof.Machine

/-! ### The field codec and DISPATCH as calls -/

theorem exec_fieldDecode (rt : RecordType) (r : RawRecord) (s : State) : exec (.fieldDecode rt r) s =
    .next { s with ret := some (.typed (fieldDecode rt r)) } := rfl

theorem exec_dispatch (f : RawFrame) (s : State) : exec (.dispatch f) s =
    .next { s with ret := some (.dispatch (dispatch s.cfg.catalog f)) } := rfl

theorem exec_catOther (id : Byte) (s : State) : exec (.catOther id) s =
    .next { s with ret := some (.dispatch (dispatchOn s.cfg.catalog id s.recs)) } := rfl

/-- Settles O40: the offset of a subfield is the NEED of the layout before it. -/
theorem offsetsAreRunningSizes : Obligations.OffsetsAreRunningSizes := by
  intro s layout
  refine ⟨offsets layout, need layout, rfl, offsets_length layout, fun o ho => ?_, fun i o sf hi ho hsf => ?_, ?_,
    fun o sf ho hsf => need_of_getLast? ho hsf⟩
  · have hpos : 0 < layout.length := offsets_length layout ▸ (List.getElem?_eq_some_iff.1 ho).1
    rw [offsets_getElem? hpos] at ho
    exact (Option.some.inj ho).symm
  · rw [offsets_getElem? (Nat.lt_of_succ_lt hi)] at ho
    rw [offsets_getElem? hi, need_take_succ hsf, Option.some.inj ho]
  · rintro rfl
    rfl

/-- Settles O41: the decode on too few data, on enough data, and on data with bytes after them. -/
theorem fieldDecodeNeedsTheWholeLayout : Obligations.FieldDecodeNeedsTheWholeLayout := by
  refine fun s rt r => ⟨fun hshort => ?_, fun hneed => ⟨?_, fun extra => ?_⟩⟩
  · rw [exec_fieldDecode, fieldDecode_of_lt_need hshort]
  · rw [exec_fieldDecode, fieldDecode_of_need_le hneed]
  · rw [exec_fieldDecode, exec_fieldDecode, fieldDecode_append hneed]

/-- Settles O42: the pattern is the sum of R11; a signed pattern is negative from half of `256^s` on. -/
theorem valueIsTheBigEndianNumber : Obligations.ValueIsTheBigEndianNumber := by
  refine fun s k raw => ⟨be raw, (valueOf k raw).number, rfl, be_sum raw, be_lt raw, ?_, fun hk hraw hlow => ?_,
    fun hk hraw hhigh => ?_, ?_⟩
  · rintro rfl
    rfl
  · have hhalf := two_mul_two_pow_bits (List.length_pos_iff.2 hraw)
    exact number_signed_of_lt hk (show 2 * be raw < 256 ^ raw.length by omega)
  · have hhalf := two_mul_two_pow_bits (List.length_pos_iff.2 hraw)
    rw [number_signed_of_ge hk (show 256 ^ raw.length ≤ 2 * be raw by omega)]
    simp [valueOf, pow_mul]
  · rintro rfl
    rfl

/-- Settles O43: the fields that FIELD.ENCODE writes, and the record it gives back for one that was decoded. -/
theorem fieldEncodeInvertsDecode : Obligations.FieldEncodeInvertsDecode := by
  refine fun s t => ⟨⟨fieldEncode t, rfl, rfl, rfl, fieldEncode_data_length t, fun hfits => ?_⟩,
    fun rt r h hdesc hdata hr => ?_⟩
  · rw [fieldEncode_length, lengthByte_toNat hfits]
  · rw [← fieldEncode_fieldDecode h hdesc hdata hr]
    rfl

/-- Settles O23: the lookup of a slot's type id is the last record of that type. -/
theorem eachSlotHoldsTheLastRecordOfItsType : Obligations.EachSlotHoldsTheLastRecordOfItsType := by
  intro s f k hk
  simp only [← mapGet_indexRecords]
  rw [exec_dispatch, dispatch, dispatchOn_of_category hk]
  rfl

/-- Settles O22: the id has no category, whether the row's byte or a frame's header gives it. -/
theorem otherCategoriesAreUnrecognized : Obligations.OtherCategoriesAreUnrecognized := by
  intro s id hid
  have hnone := category_eq_none s.cfg.catalog id hid
  refine ⟨?_, ?_⟩
  · rw [exec_catOther, dispatchOn_of_no_category hnone]
  · rintro f rfl
    rw [exec_dispatch, dispatch, dispatchOn_of_no_category hnone]

end Sys2Proof.Machine

/-! SUPPORT. The family of spec/60_exceptions.md: the frame-level error entry, the check of too few bytes, the queued
call, and the one stop of a step. -/

namespace Sys2Proof

/-- Nothing stands before the last two bytes of an input shorter than the checksum (R83). -/
theorem covered_of_short {w : List Byte} (h : w.length < 2) : covered w = [] := by
  have hend : w.length - Config.ckLen = 0 := Nat.sub_eq_zero_of_le h.le
  rw [covered, hend]
  rfl

/-- Such an input fails the check (assumption log 16). -/
theorem csumCheck_of_short {w : List Byte} (h : w.length < 2) : csumCheck w = false := by
  have hck : ¬ Config.ckLen ≤ w.length := Nat.not_le.2 h
  rw [csumCheck, decide_eq_false hck, Bool.false_and]

end Sys2Proof

namespace Sys2Proof.Machine

/-! ### The frame-level error entry, the short check, the queued call -/

/-- Settles O7: COMPLETE of a candidate that does not decode, with the code of each of the two errors. -/
theorem frameErrorDiscardsTheCandidate : Obligations.FrameErrorDiscardsTheCandidate := by
  intro s e hd
  cases e with
  | insufficientBytes => exact complete_err s _ hd
  | badChecksum => exact complete_err s _ hd

/-- Settles O28: the covered bytes of such an input are none, and the check fails. -/
theorem tooShortToCheckFailsTheCheck : Obligations.TooShortToCheckFailsTheCheck := by
  intro s w hlen
  rw [exec_csumCheck, covered_of_short hlen, csumCheck_of_short hlen, csum_nil]

/-- Settles O45: the step with no byte waiting and a call queued. -/
theorem stepRunsTheQueuedCall : Obligations.StepRunsTheQueuedCall := step_call

/-! ### The one stop -/

/-- The outcome is a next state, or the stop for a handler that never returns where `answers` has such an answer
(R131, R149). -/
def StopsOnlyForTheHandler (answers : List HandlerAnswer) (o : Result) : Prop :=
  (∃ t : State, o = .next t) ∨ (o = .fault .handlerNeverReturns ∧ .never ∈ answers)

theorem invokeHandler_stopsOnlyForTheHandler (d : Delivery) (s : State) :
    StopsOnlyForTheHandler s.handlerAnswers (invokeHandler d s) := by
  by_cases hr : s.HandlerReturns
  · exact .inl ⟨_, invokeHandler_returns d s hr⟩
  · have hnever : s.handlerAnswers.head? = some .never := not_not.1 hr
    exact .inr ⟨invokeHandler_never d s hnever, List.mem_of_mem_head? hnever⟩

theorem complete_stopsOnlyForTheHandler (s : State) : StopsOnlyForTheHandler s.handlerAnswers (complete s) := by
  obtain ⟨f, -, -, hc⟩ | ⟨e, -, hc⟩ | ⟨hnever, hc⟩ := complete_cases s
  · exact .inl ⟨_, hc⟩
  · exact .inl ⟨_, hc⟩
  · exact .inr ⟨hc, List.mem_of_mem_head? hnever⟩

/-- A row that a direct call can run: a format receives its bytes from a state of the invariant, COMPLETE and HANDLER
invoke the handler, and every other one answers whatever its operands are. -/
theorem exec_callable_stopsOnlyForTheHandler {i : Instr} (hc : i.callable = true) {s : State} (hi : s.Inv) :
    StopsOnlyForTheHandler s.handlerAnswers (exec i s) := by
  cases i with
  | sync0Hit | sync0Miss | sync1Hit | sync1Miss | desc | len | body | bodyLast | read => cases hc
  | frame f => exact (consumeBytes_inv (frameEncode f) s hi).2
  | record r => exact (consumeBytes_inv r.bytes s hi).2
  | ck x y => exact (consumeBytes_inv [x, y] s hi).2
  | complete => exact complete_stopsOnlyForTheHandler s
  | handler d => exact invokeHandler_stopsOnlyForTheHandler d s
  | timeout | ioError | cat80 | cat81 | cat82 | cat01 | cat0C | cat0D | cat7F | catOther | csum | csumStep | csumCheck
  | frameDecode | recParse | frameEncode | offsets | fieldDecode | value | fieldEncode | dispatch =>
    exact .inl ⟨_, rfl⟩

/-- Settles O50: a reset and a read answer; a popped byte is consumed from a state of the invariant, and a queued call
is run from one. -/
theorem stepStopsOnlyForTheHandler : Obligations.StepStopsOnlyForTheHandler := by
  intro s hi hcallable
  rcases Bool.eq_false_or_eq_true s.resetReq with hr | hr
  · exact .inl ⟨_, step_reset s hr⟩
  cases hq : s.rxq with
  | cons v rest =>
    rw [step_consume s v rest hr hq]
    have hconsume := (consumeByte_inv v _ (clearStatus_inv _ (hi.pop hq))).2
    exact hconsume.imp_right fun ⟨hfault, hnever⟩ => ⟨hfault, List.mem_of_mem_head? hnever⟩
  | nil =>
    cases hcalls : s.calls with
    | nil => exact .inl ⟨_, step_afterAnswer ⟨hr, hcalls⟩ hq⟩
    | cons i rest =>
      rw [step_call s i rest hr hq hcalls]
      have hcall : ({ s with calls := rest } : State).Inv := ⟨hi.shape, hi.status, hi.queue, hi.chunk, hi.catalog⟩
      exact exec_callable_stopsOnlyForTheHandler (hcallable i (by simp [hcalls])) (clearStatus_inv _ hcall)

end Sys2Proof.Machine

/-! SUPPORT. The family of spec/70_reset_and_hazards.md: reset, the lost frame, the handler that never returns, and the
result of a finite stream. -/

namespace Sys2Proof.Machine

/-! ### What the result of a stream is made of -/

/-- `s` and `t` have the same result in the sense of R154, the handler trace, the log less its `IoError` entries and
`(st, rem, buf)`, and the same of what later results are made from, the handler's coming answers and the parameters. -/
structure State.SameResult (s t : State) : Prop where
  st : t.st = s.st
  rem : t.rem = s.rem
  buf : t.buf = s.buf
  out : t.out = s.out
  errors : t.log.filter (· ≠ .ioError) = s.log.filter (· ≠ .ioError)
  handlerAnswers : t.handlerAnswers = s.handlerAnswers
  cfg : t.cfg = s.cfg

/-- COMPLETE reads no more than what `SameResult` compares. -/
theorem complete_sameResult {s t s' : State} (h : s.SameResult t) (hs : complete s = .next s') :
    ∃ t' : State, complete t = .next t' ∧ s'.SameResult t' := by
  rcases complete_cases s with ⟨f, hd, hr, hc⟩ | ⟨e, hd, hc⟩ | ⟨-, hc⟩ <;> rw [hc] at hs <;> cases hs
  · have hr' : t.HandlerReturns := by rwa [State.HandlerReturns, h.handlerAnswers]
    refine ⟨_, complete_ok t f (h.buf ▸ hd) hr', ?_⟩
    exact { h with
      st := rfl, buf := rfl, out := by simp [h.out, h.cfg], handlerAnswers := by simp [h.handlerAnswers] }
  · refine ⟨_, complete_err t e (h.buf ▸ hd), ?_⟩
    exact { h with st := rfl, buf := rfl, errors := by simpa using h.errors }

/-- Nor does a consume step. -/
theorem consumeByte_sameResult {v : Byte} {s t s' : State} (h : s.SameResult t) (hs : consumeByte v s = .next s') :
    ∃ t' : State, consumeByte v t = .next t' ∧ s'.SameResult t' := by
  cases hst : s.st with
  | awaitSync0 =>
    rw [consumeByte_awaitSync0 v s hst] at hs
    cases hs
    refine ⟨_, consumeByte_awaitSync0 v t (h.st.trans hst), ?_⟩
    split
    · exact { h with st := rfl, buf := by simp [h.buf] }
    · exact { h with buf := rfl }
  | awaitSync1 =>
    rw [consumeByte_awaitSync1 v s hst] at hs
    cases hs
    refine ⟨_, consumeByte_awaitSync1 v t (h.st.trans hst), ?_⟩
    split
    · exact { h with st := rfl, buf := by simp [h.buf] }
    · exact { h with st := rfl, buf := rfl }
  | awaitDescriptor =>
    rw [consumeByte_awaitDescriptor v s hst] at hs
    cases hs
    exact ⟨_, consumeByte_awaitDescriptor v t (h.st.trans hst), { h with st := rfl, buf := by simp [h.buf] }⟩
  | awaitLength =>
    rw [consumeByte_awaitLength v s hst] at hs
    cases hs
    exact ⟨_, consumeByte_awaitLength v t (h.st.trans hst), { h with st := rfl, rem := rfl, buf := by simp [h.buf] }⟩
  | awaitBody =>
    obtain h0 | h1 | h2 : s.rem = 0 ∨ s.rem = 1 ∨ 2 ≤ s.rem := by omega
    · rw [consumeByte_zero v s hst h0] at hs; cases hs
    · rw [consumeByte_bodyLast v s hst h1] at hs
      rw [consumeByte_bodyLast v t (h.st.trans hst) (h.rem.trans h1)]
      have hlast : State.SameResult { s with buf := s.buf ++ [v], rem := 0 } { t with buf := t.buf ++ [v], rem := 0 } :=
        { h with rem := rfl, buf := by simp [h.buf] }
      exact complete_sameResult hlast hs
    · rw [consumeByte_body v s hst h2] at hs
      cases hs
      exact ⟨_, consumeByte_body v t (h.st.trans hst) (h.rem ▸ h2),
        { h with rem := by simp [h.rem], buf := by simp [h.buf] }⟩

/-- So bytes received from states with the same result lead to states with the same result. -/
theorem consumeBytes_sameResult {w : List Byte} {s t s' : State} (h : s.SameResult t)
    (hs : consumeBytes w s = .next s') : ∃ t' : State, consumeBytes w t = .next t' ∧ s'.SameResult t' := by
  induction w generalizing s t with
  | nil => cases hs; exact ⟨t, rfl, h⟩
  | cons v w ih =>
    obtain ⟨s₁, hs₁, hw⟩ := (andThen_next_iff _ _ _).1 hs
    obtain ⟨t₁, ht₁, h₁⟩ := consumeByte_sameResult (s := s.clearStatus) (t := t.clearStatus) { h with } hs₁
    rw [consumeBytes_cons, ht₁]
    exact ih h₁ hw

/-! ### From one read to the next -/

/-- Where the loop reads: no reset is asserted and no byte waits (R75). -/
structure State.Reading (s : State) : Prop extends State.Looping s where
  noReset : s.resetReq = false
  idle : s.rxq = []

/-- What received bytes leave to the environment. -/
theorem consumeBytes_frame {w : List Byte} {s t : State} (h : consumeBytes w s = .next t) :
    t.handlerAnswers <:+ s.handlerAnswers ∧ t.calls = s.calls ∧ t.source = s.source ∧ t.rxq = s.rxq
      ∧ t.resetReq = s.resetReq := by
  induction w generalizing s with
  | nil => cases h; exact ⟨List.suffix_rfl, rfl, rfl, rfl, rfl⟩
  | cons v w ih =>
    obtain ⟨u, hu, hw⟩ := (andThen_next_iff _ _ _).1 h
    obtain ⟨hha, hcalls, -, hsource, hrxq, hreset, -, -⟩ := consumeByte_frame v _ u hu
    obtain ⟨hha', hcalls', hsource', hrxq', hreset'⟩ := ih hw
    exact ⟨hha'.trans hha, hcalls'.trans hcalls, hsource'.trans hsource, hrxq'.trans hrxq, hreset'.trans hreset⟩

/-- Bytes received where the loop reads leave the block where it reads, with the source as it was. -/
theorem State.Reading.consumes {s : State} (hs : s.Reading) (w : List Byte) :
    ∃ t : State, consumeBytes w s = .next t ∧ t.Reading ∧ t.source = s.source := by
  obtain ⟨⟨t, ht, hinv⟩, -⟩ := anyBytesAreConsumed s w hs.inv hs.returns
  obtain ⟨hha, hcalls, hsource, hrxq, hreset⟩ := consumeBytes_frame ht
  exact ⟨t, ht, ⟨⟨hinv, hcalls.trans hs.noCalls, fun h hmem => hs.returns h (hha.subset hmem)⟩,
    hreset.trans hs.noReset, hrxq.trans hs.idle⟩, hsource⟩

/-- `s` after a read that got the answer `x` and left the source with `r`, the bytes of `x` taken from the queue. -/
def State.readDone (s : State) (x : SourceAnswer) (r : List SourceAnswer) : State :=
  { afterAnswer ({ s with source := r } : State).clearStatus x with rxq := [] }

@[simp] theorem readDone_source (s : State) (x : SourceAnswer) (r : List SourceAnswer) :
    (s.readDone x r).source = r := by cases x <;> rfl

/-- A read writes the source, the queue, the status outputs and the log (R75 to R77). -/
theorem State.Reading.readDone {s : State} (hs : s.Reading) (x : SourceAnswer) (r : List SourceAnswer) :
    (s.readDone x r).Reading := by
  have hinv : (s.readDone x r).Inv := by
    cases x <;> exact ⟨hs.inv.shape, ⟨Nat.zero_le _, fun _ => rfl⟩, Nat.zero_le _, hs.inv.chunk, hs.inv.catalog⟩
  cases x <;> exact ⟨⟨hinv, hs.noCalls, hs.returns⟩, hs.noReset, rfl⟩

/-- What it writes to the log is an `IoError` entry at most, which the result leaves out (R154). -/
theorem readDone_sameResult {s u : State} (h : s.SameResult u) (x : SourceAnswer) (r : List SourceAnswer) :
    (s.readDone x r).SameResult u := by
  cases x with
  | bytes bs => exact { h with }
  | timeout => exact { h with }
  | ioError => exact { h with errors := by simpa [State.readDone, afterAnswer] using h.errors }

@[simp] theorem afterAnswer_resetReq (s : State) (x : SourceAnswer) : (afterAnswer s x).resetReq = s.resetReq := by
  cases x <;> rfl

/-- The queue after a read holds the bytes of the answer. -/
theorem afterAnswer_rxq {s : State} (hq : s.rxq = []) (x : SourceAnswer) : (afterAnswer s x).rxq = streamOf [x] := by
  cases x with
  | bytes bs => exact (List.append_nil bs).symm
  | timeout => exact hq
  | ioError => exact hq

/-- A read and a step for each byte it delivers (R63, R75): the answer's bytes are consumed. -/
theorem State.Reading.run_read {s : State} (hs : s.Reading) {x : SourceAnswer} {r : List SourceAnswer}
    (hx : nextAnswer s.cfg.rxChunk s.source = (x, r)) :
    run ((streamOf [x]).length + 1) s = consumeBytes (streamOf [x]) (s.readDone x r) := by
  have hstep := step_of_nextAnswer ⟨hs.noReset, hs.noCalls⟩ hs.idle rfl hx
  have hrxq := afterAnswer_rxq (s := ({ s with source := r } : State).clearStatus) hs.idle x
  rw [run_succ, hstep, andThen_next]
  exact queuedBytesAreConsumedInOrder _ (streamOf [x]) [] ((afterAnswer_resetReq _ x).trans hs.noReset)
    (hrxq.trans (List.append_nil _).symm)

/-! ### To the end of the source -/

/-- What reads have to take from a source: its answers and their bytes. -/
def sourceSize (src : List SourceAnswer) : Nat := src.length + (streamOf src).length

/-- A read takes an answer, or `RX_CHUNK` bytes of one that is longer. -/
theorem sourceSize_nextAnswer_lt {chunk : Nat} (hc : 1 ≤ chunk) {src : List SourceAnswer} (hsrc : src ≠ []) :
    sourceSize (nextAnswer chunk src).2 < sourceSize src := by
  match src with
  | [] => exact absurd rfl hsrc
  | .timeout :: r | .ioError :: r => simp [nextAnswer, sourceSize, streamOf]
  | .bytes bs :: r =>
    obtain hlt | hle := Nat.lt_or_ge chunk bs.length
    · rw [nextAnswer_bytes_of_lt hlt]
      simp only [sourceSize, streamOf, List.length_append, List.length_cons, List.length_drop]
      omega
    · rw [nextAnswer_bytes_of_le hle]
      simp only [sourceSize, streamOf, List.length_append, List.length_cons]
      omega

/-- The run to the end of the source beside the receipt of its bytes in a row: each read and the bytes it delivers keep
the results the same. -/
theorem State.Reading.run_source {s u : State} (hs : s.Reading) (h : s.SameResult u) : ∃ (k : Nat) (t u' : State),
    run k s = .next t ∧ consumeBytes (streamOf s.source) u = .next u' ∧ t.source = [] ∧ t.rxq = []
      ∧ t.SameResult u' := by
  induction hn : sourceSize s.source using Nat.strong_induction_on generalizing s u with
  | _ n ih =>
    by_cases hsrc : s.source = []
    · exact ⟨0, s, u, rfl, by rw [hsrc]; rfl, hsrc, hs.idle, h⟩
    obtain ⟨x, r, hx⟩ : ∃ x r, nextAnswer s.cfg.rxChunk s.source = (x, r) := ⟨_, _, rfl⟩
    have hstream := nextAnswer_stream s.cfg.rxChunk s.source
    have hlt := sourceSize_nextAnswer_lt hs.inv.chunk hsrc
    rw [hx] at hstream hlt
    obtain ⟨s₁, hs₁, hreading, hsource⟩ := (hs.readDone x r).consumes (streamOf [x])
    rw [readDone_source] at hsource
    obtain ⟨u₁, hu₁, h₁⟩ := consumeBytes_sameResult (readDone_sameResult h x r) hs₁
    obtain ⟨k, t, u', ht, hu', hend⟩ := ih (sourceSize s₁.source) (by rw [hsource, ← hn]; exact hlt) hreading h₁ rfl
    refine ⟨(streamOf [x]).length + 1 + k, t, u', ?_, ?_, hend⟩
    · rw [run_add, hs.run_read hx, hs₁, andThen_next, ht]
    · rw [← hstream, consumeBytes_append, hu₁, andThen_next, ← hsource, hu']

/-- Settles O56: the run reads to the end of the source, and has the result of receiving the bytes in a row. -/
theorem resultDependsOnTheStreamAlone : Obligations.ResultDependsOnTheStreamAlone := by
  intro s hi hs hq hh
  have hreading : s.Reading := ⟨⟨hi, hs.2, hh⟩, hs.1, hq⟩
  obtain ⟨k, t, u, ht, hu, hsource, hrxq, h⟩ :=
    hreading.run_source (u := { s with source := [] }) ⟨rfl, rfl, rfl, rfl, rfl, rfl, rfl⟩
  exact ⟨k, t, u, ht, hu, hsource, hrxq, h.out.symm, h.errors.symm, h.st.symm, h.rem.symm, h.buf.symm⟩

/-! ### The lost frame, the handler, reset -/

/-- Settles O20: the frame's first byte fails as a second magic byte, and the rest is a run of misses. -/
theorem strayMagicByteLosesTheFrame : Obligations.StrayMagicByteLosesTheFrame := by
  intro s f hst hf hrest
  obtain ⟨h0, -⟩ := f.wellFormed_iff.1 hf
  obtain ⟨w, hw⟩ : ∃ w, frameEncode f = Config.sync0 :: w := by
    simp [frameEncode, RawFrame.coveredBytes, h0]
  rw [hw, List.tail_cons] at hrest
  have hmiss := consumeByte_awaitSync1 Config.sync0 s.clearStatus hst
  rw [if_neg (by decide)] at hmiss
  have hmisses := consumeBytes_misses (w := w) (s := { s.clearStatus with buf := [], st := .awaitSync0 })
    (fun v hv h => hrest (show Config.sync0 ∈ w from h ▸ hv)) rfl rfl
  show consumeBytes (frameEncode f) s = _
  rw [hw, consumeBytes_cons, hmiss]
  exact hmisses

/-- Settles O9: HANDLER, and COMPLETE of a candidate that decodes, which BODY.LAST runs on the buffer with its byte. -/
theorem handlerThatNeverReturnsStopsTheBlock : Obligations.HandlerThatNeverReturnsStopsTheBlock := by
  intro s hnever
  refine ⟨fun d => invokeHandler_never d s hnever, fun f hd => complete_never s f hd hnever, fun v f hst hr hd => ?_⟩
  rw [exec_bodyLast v hst hr]
  exact complete_never _ f hd hnever

/-- Settles O47: the step is the reset of the block, which writes each value out or takes it from `s`. -/
theorem assertedResetGivesTheResetValues : Obligations.AssertedResetGivesTheResetValues := fun s hr =>
  ⟨s.blockReset, step_reset s hr, rfl, rfl, rfl, rfl, rfl, rfl, rfl, rfl, rfl, rfl, rfl, rfl, rfl⟩

end Sys2Proof.Machine
